-- ==== Sys2Proof/Word.lean ====
section
/-! DEFINITION. The machine's one word: the byte (R5). Bit 7 is the bit of weight 128. -/

namespace Sys2Proof

/-- A byte (R5). Every datum of a buffer is one byte (R36). -/
abbrev Byte := BitVec 8

end Sys2Proof
end

