-- ==== Sys2Proof/Config.lean ====
section
/-! DEFINITION. The constants of the codec (R3), the parameters this spec decides (R4), and the free values. -/

namespace Sys2Proof.Config

/-- `MARKER` (R3): the byte that introduces a run descriptor, and the start of a run in the encoder's input. -/
def marker : Byte := 0x00

/-- `FILL_Z` (R3): the byte a ZRUN expands to. -/
def fillZ : Byte := 0x00

/-- `FILL_F` (R3): the byte an FRUN expands to. -/
def fillF : Byte := 0xFF

/-- `ZCAP` (R3): the most 0x00 bytes one descriptor covers. -/
def zcap : Nat := 128

/-- `FCAP` (R3): the most 0xFF bytes one encoder-made descriptor covers. -/
def fcap : Nat := 32

/-- `TYPE_BIT` (R3): bit 7 of the control byte, 1 for a 0xFF-run. -/
def typeBit : Byte := 0x80

/-- `ZLEN_MASK` (R3): the control byte's bits that hold the length less one of a 0x00-run. -/
def zlenMask : Byte := 0x7F

/-- `HDR` (R3): the size of the header window. -/
def hdr : Nat := 4

/-- `NEG_MASK` (R3): the mask of the header negation. -/
def negMask : Byte := 0xFF

/-- `FLEN_MASK` (R4, R49): the control byte's bits the decoder takes as the length less one of a 0xFF-run.
The spec's decision D5 (DESIGN CHOICE of the spec, log entry 2); the only other value with support in the text is 0x7F. -/
def flenMask : Byte := 0x1F

/-- `ERR_CODE_MALFORMED` (R4, D9). -/
def errCodeMalformed : Byte := 0x01

/-- FREE VALUE (log entry 3): what byte `k` of ENC's `IN` holds that the host has not written since the `epoch`-th
reset event (R25, U10: any value). No body: nothing in Lean can say which byte it is. -/
opaque encUnwrittenByte (epoch k : Nat) : Byte

/-- FREE VALUE (log entry 3): the same for DEC's `IN`. -/
opaque decUnwrittenByte (epoch k : Nat) : Byte

end Sys2Proof.Config
end

