-- ==== Sys2Proof/Syntax.lean ====
section
/-! DEFINITION. The steps, segments and commands of CORE: one constructor per row of spec/opcode_table.json. -/

namespace Sys2Proof

/-- The two engines (R1). -/
inductive EngineId where
  | enc
  | dec
  deriving DecidableEq, Repr

/-- One constructor per row of the opcode table (R58). An operand is the one the spec gives the row: the literal byte,
the run's length, and for FRUN the unused bits 6:5 (R47, R56: `x = 0` is `FRUN n`, another `x` is `FRUN.x n`). -/
inductive Instr where
  /-- LIT, the step D.LIT (R77). -/
  | lit (b : Byte)
  /-- ZRUN, the step D.ZRUN (R78). -/
  | zrun (n : Nat)
  /-- FRUN and FRUN.x, the step D.FRUN (R79). -/
  | frun (x : BitVec 2) (n : Nat)
  /-- TRUNC, the step D.TRUNC (R80). -/
  | trunc
  /-- E.LIT (R62). -/
  | eLit (b : Byte)
  /-- E.ZRUN (R63). -/
  | eZrun (z : Nat)
  /-- E.FRUN (R64). -/
  | eFrun (f : Nat)
  /-- E.ENDSCAN (R65). -/
  | eEndscan
  /-- E.NEG (R66). -/
  | eNeg
  /-- D.UNNEG (R76). -/
  | dUnneg
  /-- D.END (R81). -/
  | dEnd
  /-- ENC.START (R90). -/
  | encStart
  /-- DEC.START (R91). -/
  | decStart
  deriving DecidableEq, Repr

/-- The engine an instruction acts on (R10). -/
def Instr.engine : Instr → EngineId
  | .lit _ => .dec
  | .zrun _ => .dec
  | .frun _ _ => .dec
  | .trunc => .dec
  | .eLit _ => .enc
  | .eZrun _ => .enc
  | .eFrun _ => .enc
  | .eEndscan => .enc
  | .eNeg => .enc
  | .dUnneg => .dec
  | .dEnd => .dec
  | .encStart => .enc
  | .decStart => .dec

/-- The host's commands; every other row is a step an engine takes by itself (R58, R96). -/
def Instr.isCommand : Instr → Bool
  | .lit _ => false
  | .zrun _ => false
  | .frun _ _ => false
  | .trunc => false
  | .eLit _ => false
  | .eZrun _ => false
  | .eFrun _ => false
  | .eEndscan => false
  | .eNeg => false
  | .dUnneg => false
  | .dEnd => false
  | .encStart => true
  | .decStart => true

end Sys2Proof
end

