-- ==== Sys2Proof/Machine/State.lean ====
section
/-! DEFINITION. The state of CORE (10_state.md), the reasons a step can stop, and the state after reset (R25). -/

namespace Sys2Proof.Machine

/-- A byte buffer's storage: the bytes written, by index, indices strictly rising. An index not listed has no value. -/
abbrev Memory := List Host.Cell

/-- `ENC.PHASE` (R17). -/
inductive EncPhase where
  | idle
  | scan
  | post
  | done
  deriving DecidableEq, Repr

/-- `DEC.PHASE` (R17). -/
inductive DecPhase where
  | idle
  | pre
  | scan
  | done
  deriving DecidableEq, Repr

/-- The state both engines have (R10, R13 to R15). -/
structure Engine where
  /-- `IN` (R14): the bytes the host has written since reset. -/
  inBuf : Memory
  /-- `IN_LEN` (R14). -/
  inLen : Nat
  /-- `OUT` (R15): the storage; the result is its first `OUT_LEN` bytes. -/
  outBuf : Memory
  /-- `OUT_LEN` (R15). -/
  outLen : Nat
  /-- `CUR` (R13), the engine's program counter. -/
  cur : Nat
  /-- The MODEL's own field (log entry 5): how many reset events the engine has taken. -/
  epoch : Nat
  deriving DecidableEq, Repr

/-- ENC. Its ERR and CAUSE are hardwired 0 (R18, R19), so they are not stored. -/
structure Enc where
  phase : EncPhase
  eng : Engine
  deriving DecidableEq, Repr

/-- DEC (R10): an engine with the working copy, the error bit and the cause. -/
structure Dec where
  phase : DecPhase
  eng : Engine
  /-- `WORK` (R16). -/
  work : Memory
  /-- `STATUS.ERR` (R18). -/
  err : Bool
  /-- `CAUSE` (R19). -/
  cause : Byte
  deriving DecidableEq, Repr

/-- What the host can do to one engine (R20, R93, R97) and the reset event (R135, U14). Reads change nothing (R94) and
are functions of the state (Machine/HostPort.lean). -/
inductive HostMove where
  | writeIn (e : EngineId) (k : Nat) (b : Byte)
  | writeInLen (e : EngineId) (n : Nat)
  | writeCtrl (e : EngineId) (v : Byte)
  | reset (e : EngineId)
  deriving DecidableEq, Repr

/-- Who moves next (log entry 6): the host makes a move, or an engine takes its next step. -/
inductive Input where
  | host (m : HostMove)
  | tick (e : EngineId)
  deriving DecidableEq, Repr

/-- The machine (R1, R10): the two engines, and the moves to come, first one first. -/
structure State where
  enc : Enc
  dec : Dec
  /-- The MODEL's own field (log entry 6): the moves the host and the engines make next, in order. -/
  agenda : List Input
  deriving DecidableEq, Repr

/-- Why the machine stops with a fault. No state that a run reaches raises one (R26, R27); each is safe. -/
inductive Fault where
  /-- The step of a scanning engine whose `CUR` is beyond `IN_LEN`, which R13 excludes: no step rule is enabled. Safe. -/
  | cursorPastInput (e : EngineId)
  /-- The step of DEC that reads a byte of `WORK` that D.UNNEG has not written (R27). Safe. -/
  | workUnwritten
  /-- E.NEG, for a byte of `OUT` below `OUT_LEN` that no step has written (R27). Safe. -/
  | outUnwritten
  deriving DecidableEq, Repr

/-- Why the model gives an instruction or a host move no meaning. Each is safe. -/
inductive Refusal where
  /-- An arm of exec without a meaning. No instruction of this model is left so. -/
  | notModelled (mnemonic : String)
  /-- exec, for an instruction given to it in a state where the spec's "Enabled when" is false (R62 to R66, R76 to R81).
  The step function never does so (log entry 9). Safe. -/
  | notEnabled
  /-- ENC.START and DEC.START while the engine is BUSY (R92, R142, U8). Safe. -/
  | startWhileBusy (e : EngineId)
  /-- A host write of `IN` or `IN_LEN` while the engine is BUSY (R140, U9). Safe. -/
  | inputWriteWhileBusy (e : EngineId)
  deriving DecidableEq, Repr

/-- The result of one step. -/
abbrev Result := Host.Outcome State Fault Refusal

/-- An engine after reset (R25): lengths and cursor 0; the buffers' contents are unspecified, so nothing is listed
(DESIGN CHOICE, log entries 3, 4 and 5). -/
def Engine.reset : Engine :=
  { inBuf := [], inLen := 0, outBuf := [], outLen := 0, cur := 0, epoch := 0 }

/-- ENC after reset (R25). -/
def Enc.reset : Enc := { phase := .idle, eng := Engine.reset }

/-- DEC after reset (R25). -/
def Dec.reset : Dec := { phase := .idle, eng := Engine.reset, work := [], err := false, cause := 0 }

/-- The machine right after reset (R25, R135), with no move to come (DESIGN CHOICE, log entry 6). -/
def State.reset : State := { enc := Enc.reset, dec := Dec.reset, agenda := [] }

end Sys2Proof.Machine
end

