-- ==== Sys2Proof/Machine/Ops.lean ====
section
/-! DEFINITION. The named operations over buffers and engine state (20_memory.md), and taking the one exception (R122). -/

namespace Sys2Proof.Machine

/-! ## Buffers -/

/-- The canonical form: indices strictly rising, so equal contents are equal data. -/
abbrev Memory.wf (m : Memory) : Prop := (m.map Prod.fst).Pairwise (· < ·)

/-- Read one byte (R33): no value where nothing was written (R27). -/
def Memory.read? : Memory → Nat → Option Byte
  | [], _ => none
  | (a, b) :: m, k => if a = k then some b else Memory.read? m k

/-- `MemWrite` of one byte (R7). -/
def Memory.write : Memory → Nat → Byte → Memory
  | [], k, v => [(k, v)]
  | (a, b) :: m, k, v =>
    if k < a then (k, v) :: (a, b) :: m
    else if k = a then (k, v) :: m
    else (a, b) :: Memory.write m k v

/-- Write a byte sequence from index `k` on, in index order (R34). -/
def Memory.writeSeq : Memory → Nat → List Byte → Memory
  | m, _, [] => m
  | m, k, b :: bs => Memory.writeSeq (m.write k b) (k + 1) bs

/-- The `n` bytes from index `k` on, or no value if one of them was never written. -/
def Memory.readSeq? : Memory → Nat → Nat → Option (List Byte)
  | _, _, 0 => some []
  | m, k, n + 1 =>
    match m.read? k, Memory.readSeq? m (k + 1) n with
    | some b, some bs => some (b :: bs)
    | _, _ => none

/-! ## One engine -/

/-- Byte `k` of `IN`: what the host wrote, else the free value of that byte (R25, U10, log entry 3). -/
def Engine.inByte (free : Nat → Nat → Byte) (e : Engine) (k : Nat) : Byte :=
  (e.inBuf.read? k).getD (free e.epoch k)

/-- `IN[0..IN_LEN)` as a byte sequence (R6, R14). -/
def Engine.inSeq (free : Nat → Nat → Byte) (e : Engine) : List Byte :=
  (List.range e.inLen).map (e.inByte free)

/-- `OUT[0..OUT_LEN)` as a byte sequence (R6, R15). -/
def Engine.outSeq? (e : Engine) : Option (List Byte) := e.outBuf.readSeq? 0 e.outLen

/-- `Emit` (R7, R34): append at `OUT_LEN`. -/
def Engine.emit (e : Engine) (bs : List Byte) : Engine :=
  { e with outBuf := e.outBuf.writeSeq e.outLen bs, outLen := e.outLen + bs.length }

/-- `CUR <- CUR + n` (R13). -/
def Engine.advance (e : Engine) (n : Nat) : Engine := { e with cur := e.cur + n }

/-- What START does to either engine (R90, R91): the scan starts at the first byte with an empty output (R138). -/
def Engine.start (e : Engine) : Engine := { e with cur := 0, outLen := 0 }

/-- `OUT_LEN <- 0` with the storage left as it is (R122). -/
def Engine.discardOut (e : Engine) : Engine := { e with outLen := 0 }

/-- The host writes a byte of `IN` (R93). -/
def Engine.writeIn (e : Engine) (k : Nat) (b : Byte) : Engine := { e with inBuf := e.inBuf.write k b }

/-- The host writes `IN_LEN` (R93). -/
def Engine.writeInLen (e : Engine) (n : Nat) : Engine := { e with inLen := n }

/-- A reset event (R135, R136): the values of R25; the buffers' contents become unspecified, so `IN`'s free values are
drawn anew (log entry 5). -/
def Engine.resetEvent (e : Engine) : Engine := { Engine.reset with epoch := e.epoch + 1 }

/-! ## The two engines -/

/-- ENC's raw buffer (R14). -/
def Enc.inSeq (e : Enc) : List Byte := e.eng.inSeq Config.encUnwrittenByte

/-- DEC's wire buffer (R14). -/
def Dec.inSeq (d : Dec) : List Byte := d.eng.inSeq Config.decUnwrittenByte

/-- `WORK[0..IN_LEN)` (R16), or no value before D.UNNEG has written it (R27). -/
def Dec.workSeq? (d : Dec) : Option (List Byte) := d.work.readSeq? 0 d.eng.inLen

/-- `WORK[CUR + j]`, the bound test made before the read (R86, R146 (c)). -/
def Dec.byteAt? (d : Dec) (j : Nat) : Option Byte :=
  if d.eng.cur + j < d.eng.inLen then d.work.read? (d.eng.cur + j) else none

/-- Raising MalformedStream (R122): the output is discarded, the cause recorded, the operation ends; CUR, IN and WORK
stay. There is no return from it (R126): DEC.START and reset are the only ways on. -/
def Dec.raiseMalformed (d : Dec) : Dec :=
  { d with phase := .done, eng := d.eng.discardOut, err := true, cause := Config.errCodeMalformed }

/-- What DEC.START clears (R91): the way on after MalformedStream (R126). -/
def Dec.start (d : Dec) : Dec :=
  { d with phase := .pre, eng := d.eng.start, err := false, cause := 0 }

/-- ENC.START (R90); its CAUSE is hardwired 0 (R19). -/
def Enc.start (e : Enc) : Enc := { e with phase := .scan, eng := e.eng.start }

/-- A reset event of ENC (R135). -/
def Enc.resetEvent (e : Enc) : Enc := { Enc.reset with eng := e.eng.resetEvent }

/-- A reset event of DEC (R135). -/
def Dec.resetEvent (d : Dec) : Dec := { Dec.reset with eng := d.eng.resetEvent }

/-! ## The machine -/

/-- The machine with ENC replaced; DEC shares nothing with it (R2). -/
def State.setEnc (s : State) (e : Enc) : State := { s with enc := e }

/-- The machine with DEC replaced. -/
def State.setDec (s : State) (d : Dec) : State := { s with dec := d }

/-- The engine state of one engine. -/
def State.eng (s : State) : EngineId → Engine
  | .enc => s.enc.eng
  | .dec => s.dec.eng

/-- The machine with one engine's state replaced. -/
def State.setEng (s : State) : EngineId → Engine → State
  | .enc, e => s.setEnc { s.enc with eng := e }
  | .dec, e => s.setDec { s.dec with eng := e }

end Sys2Proof.Machine
end

