-- ==== Sys2Proof/Machine/Flags.lean ====
section
/-! DEFINITION. The STATUS flags (R18): BUSY and DONE are functions of PHASE; ERR is DEC's alone. -/

namespace Sys2Proof.Machine

/-- `BUSY` of ENC (R18): PHASE is SCAN or POST. -/
def Enc.busy (e : Enc) : Bool :=
  match e.phase with
  | .idle => false
  | .scan => true
  | .post => true
  | .done => false

/-- `BUSY` of DEC (R18): PHASE is PRE or SCAN. -/
def Dec.busy (d : Dec) : Bool :=
  match d.phase with
  | .idle => false
  | .pre => true
  | .scan => true
  | .done => false

/-- `BUSY` of one engine. -/
def State.busy (s : State) : EngineId → Bool
  | .enc => s.enc.busy
  | .dec => s.dec.busy

/-- `DONE` of one engine (R18): PHASE is DONE. -/
def State.done (s : State) : EngineId → Bool
  | .enc => decide (s.enc.phase = .done)
  | .dec => decide (s.dec.phase = .done)

/-- `ERR` of one engine (R18): hardwired 0 in ENC. -/
def State.err (s : State) : EngineId → Bool
  | .enc => false
  | .dec => s.dec.err

/-- The byte with BUSY, DONE and ERR in bits 0, 1 and 2 and bits 7:3 zero (R18, U12). -/
def statusByte (busy done err : Bool) : Byte :=
  (if busy then 0x01 else 0) ||| (if done then 0x02 else 0) ||| (if err then 0x04 else 0)

/-- `STATUS` of one engine (R18). -/
def State.status (s : State) (e : EngineId) : Byte := statusByte (s.busy e) (s.done e) (s.err e)

/-- `CAUSE` of one engine (R19): hardwired 0 in ENC. -/
def State.cause (s : State) : EngineId → Byte
  | .enc => 0
  | .dec => s.dec.cause

end Sys2Proof.Machine
end

