-- ==== Sys2Proof/WellFormed.lean ====
section
/-! DEFINITION. The operand ranges of the instructions (R47, R56, R61). -/

namespace Sys2Proof

/-- The operands are in the ranges of R56 (wire segments) and R61 (look-ahead): a literal is not the marker, a
0x00-run has 1 to 128 bytes, a 0xFF-run 1 to 32. -/
def Instr.wf : Instr → Bool
  | .lit b => b != Config.marker
  | .zrun n => decide (1 ≤ n) && decide (n ≤ Config.zcap)
  | .frun _ n => decide (1 ≤ n) && decide (n ≤ Config.fcap)
  | .trunc => true
  | .eLit b => b != Config.marker
  | .eZrun z => decide (1 ≤ z) && decide (z ≤ Config.zcap)
  | .eFrun f => decide (1 ≤ f) && decide (f ≤ Config.fcap)
  | .eEndscan => true
  | .eNeg => true
  | .dUnneg => true
  | .dEnd => true
  | .encStart => true
  | .decStart => true

end Sys2Proof
end

