-- ==== Sys2Proof/Decode.lean ====
section
/-! DEFINITION. The decoder of wire segments and of CTRL writes (R46 to R54, R20), total on any bytes, and after it the
encoder (R47 to R49, R56). Segments are LOGICAL bytes: the header window is undone before (R45, R76). -/

namespace Sys2Proof

/-- Why a byte sequence holds no segment at its start. -/
inductive DecodeError where
  /-- The sequence is empty: the stream has ended (R46). -/
  | endOfStream
  deriving DecidableEq, Repr

/-- Where an instruction's bits stand: in the logical stream, or in a write to an engine's CTRL (R58). -/
inductive Place where
  | stream
  | ctrl (e : EngineId)
  deriving DecidableEq, Repr

/-! ## Fields of the control byte -/

/-- `T`, the run type (R47): true for a 0xFF-run. -/
def isFrunControl (c : Byte) : Bool := (c &&& Config.typeBit) != 0

/-- The run length of a ZRUN control byte (R48). The `+ 1` is on natural numbers (R52 (d)). -/
def zrunLength (c : Byte) : Nat := (c &&& Config.zlenMask).toNat + 1

/-- The run length the decoder gives an FRUN control byte (R49, D5). -/
def frunLength (c : Byte) : Nat := (c &&& Config.flenMask).toNat + 1

/-- `X`, the unused bits 6:5 of an FRUN control byte (R47). -/
def frunUnused (c : Byte) : BitVec 2 := c.extractLsb' 5 2

/-! ## Decoding -/

/-- The descriptor `[00, c]` (R54: all 256 control bytes have a meaning). -/
def decodeDescriptor (c : Byte) : Instr :=
  if isFrunControl c then .frun (frunUnused c) (frunLength c) else .zrun (zrunLength c)

/-- The segment at the start of a logical byte sequence, and the bytes after it (R53). A marker with no byte after it
is TRUNC (R55 (a)). -/
def decode : List Byte → Except DecodeError (Instr × List Byte)
  | [] => .error .endOfStream
  | b :: rest =>
    if b = Config.marker then
      match rest with
      | [] => .ok (.trunc, [])
      | c :: rest' => .ok (decodeDescriptor c, rest')
    else .ok (.lit b, rest)

/-- A write of `v` to an engine's CTRL (R20): bit 0 is START, the other bits are ignored, 0 has no effect. -/
def decodeCtrl (e : EngineId) (v : Byte) : Option Instr :=
  if v.getLsbD 0 then
    match e with
    | .enc => some .encStart
    | .dec => some .decStart
  else none

/-- The instruction that bytes stand for at a place. -/
def decodeAt : Place → List Byte → Option Instr
  | .stream, bs =>
    match decode bs with
    | .ok (i, _) => some i
    | .error _ => none
  | .ctrl e, [v] => decodeCtrl e v
  | .ctrl _, _ => none

/-- The bytes of a number of `nbits` bits as the opcode table packs them: the byte at the LOWER index is the more
significant one (R58: "bits 15:8 are the byte at the lower index"; log entry 11). -/
def tableBytes (nbits w : Nat) : List Byte :=
  (List.range (nbits / 8)).reverse.map fun j => BitVec.ofNat 8 (w >>> (8 * j))

/-- The segment read from a table word. Rows without bits in the stream (the encoder's, the phase steps, the commands)
have no table word (log entry 11). -/
def decodeTableWord (nbits w : Nat) : Option Instr := decodeAt .stream (tableBytes nbits w)

/-! ## Encoding -/

/-- The control byte of a ZRUN of `n` bytes (R48). -/
def zrunControl (n : Nat) : Byte := BitVec.ofNat 8 (n - 1)

/-- The control byte of an FRUN of `n` bytes with bits 6:5 equal to `x` (R49, R56). -/
def frunControl (x : BitVec 2) (n : Nat) : Byte :=
  Config.typeBit ||| (x.setWidth 8 <<< 5) ||| BitVec.ofNat 8 (n - 1)

/-- The logical bytes of a wire segment (R47, R56), or the byte written to CTRL (R20). The encoder's productions and
the phase steps have no encoding (R58). -/
def encode : Instr → Option (Place × List Byte)
  | .lit b => some (.stream, [b])
  | .zrun n => some (.stream, [Config.marker, zrunControl n])
  | .frun x n => some (.stream, [Config.marker, frunControl x n])
  | .trunc => some (.stream, [Config.marker])
  | .eLit _ => none
  | .eZrun _ => none
  | .eFrun _ => none
  | .eEndscan => none
  | .eNeg => none
  | .dUnneg => none
  | .dEnd => none
  | .encStart => some (.ctrl .enc, [0x01])
  | .decStart => some (.ctrl .dec, [0x01])

/-! ## Streams -/

/-- The segment is an FRUN descriptor (R100 (b), (d)). -/
def Instr.isFrun : Instr → Bool
  | .frun _ _ => true
  | _ => false

/-- The one segmentation of a logical byte sequence (R46, R53), a lone final marker read as TRUNC. -/
def segments : List Byte → List Instr
  | [] => []
  | [b] => if b = Config.marker then [.trunc] else [.lit b]
  | b :: c :: rest =>
    if b = Config.marker then decodeDescriptor c :: segments rest else .lit b :: segments (c :: rest)

/-- The logical bytes of a list of segments, in order (R46). -/
def encodeStream : List Instr → List Byte
  | [] => []
  | i :: is =>
    match encode i with
    | some (.stream, bs) => bs ++ encodeStream is
    | some (.ctrl _, _) => encodeStream is
    | none => encodeStream is

end Sys2Proof
end

