-- ==== Sys2Proof/Machine/Operands.lean ====
section
/-! DEFINITION. The run detector's look-ahead (R61) and the header negation (R50). -/

namespace Sys2Proof.Machine

/-- What the run detector finds at the cursor (R61). -/
inductive LookAhead where
  | literal (b : Byte)
  | zrun (z : Nat)
  | frun (f : Nat)
  deriving DecidableEq, Repr

/-- How many bytes `v` a sequence begins with, counted up to `cap` (R7, R61). -/
def countRun (v : Byte) : Nat → List Byte → Nat
  | 0, _ => 0
  | _ + 1, [] => 0
  | cap + 1, b :: bs => if b = v then countRun v cap bs + 1 else 0

/-- `zrun` (R7, R61), cursor-relative and capped. -/
def zrun (bs : List Byte) (i : Nat) : Nat := countRun Config.fillZ Config.zcap (bs.drop i)

/-- `frun` (R7, R61). -/
def frun (bs : List Byte) (j : Nat) : Nat := countRun Config.fillF Config.fcap (bs.drop j)

/-- `classify` (R61): the zeros are counted first, and only a count of exactly 1 with a byte 0xFF after it is a 0xFF-run.
No value at or beyond the end of the input. Every byte is read after its bound test (R70, R146 (d)). -/
def classify (bs : List Byte) (i : Nat) : Option LookAhead :=
  match bs[i]? with
  | none => none
  | some b =>
    if b ≠ Config.marker then some (.literal b)
    else if zrun bs i = 1 ∧ bs[i + 1]? = some Config.fillF then some (.frun (frun bs (i + 1)))
    else some (.zrun (zrun bs i))

/-- The input bytes a production consumes (R62 to R64): for a 0xFF-run the trigger too. -/
def LookAhead.width : LookAhead → Nat
  | .literal _ => 1
  | .zrun z => z
  | .frun f => 1 + f

/-- The logical bytes the control-sequence generator emits (R62 to R64): bits 6:5 of a 0xFF-run are 0 (U2). -/
def LookAhead.emits : LookAhead → List Byte
  | .literal b => [b]
  | .zrun z => [Config.marker, zrunControl z]
  | .frun f => [Config.marker, frunControl 0 f]

/-- The encoder step for what the detector found (R60). -/
def LookAhead.instr : LookAhead → Instr
  | .literal b => .eLit b
  | .zrun z => .eZrun z
  | .frun f => .eFrun f

/-- `Neg4` (R50): the first `min(4, length)` bytes inverted, the rest and the length unchanged. -/
def neg4 (s : List Byte) : List Byte :=
  (s.take Config.hdr).map (· ^^^ Config.negMask) ++ s.drop Config.hdr

end Sys2Proof.Machine
end

