-- ==== Sys2Proof/Machine/Fetch.lean ====
section
/-! DEFINITION. Which step rule is enabled in an engine (R69, R85): fetching the segment at CUR, or looking ahead. -/

namespace Sys2Proof.Machine

/-- What an engine does when it is its turn. -/
inductive Selected where
  /-- No step of its own: the engine waits for the host (R17, R130). -/
  | waiting
  /-- The one enabled step. -/
  | run (i : Instr)
  /-- A state that no run reaches, in which no step rule is enabled or a byte was never written. -/
  | stuck (f : Fault)
  deriving DecidableEq, Repr

/-- ENC's enabled step (R69). -/
def Enc.select (e : Enc) : Selected :=
  match e.phase with
  | .idle => .waiting
  | .scan =>
    if e.eng.cur = e.eng.inLen then .run .eEndscan
    else
      match classify e.inSeq e.eng.cur with
      | some la => .run la.instr
      | none => .stuck (.cursorPastInput .enc)
  | .post => .run .eNeg
  | .done => .waiting

/-- The bytes of `WORK` from CUR on, at most the two a segment can have (R46), none at or beyond `IN_LEN` (R86). -/
def Dec.window? (d : Dec) : Option (List Byte) := d.work.readSeq? d.eng.cur (min 2 (d.eng.inLen - d.eng.cur))

/-- DEC's enabled step (R85), in the order of tests R125 gives: end of buffer, then the segment at CUR. -/
def Dec.select (d : Dec) : Selected :=
  match d.phase with
  | .idle => .waiting
  | .pre => .run .dUnneg
  | .scan =>
    if d.eng.cur = d.eng.inLen then .run .dEnd
    else
      match d.window? with
      | some bs =>
        match decode bs with
        | .ok (i, _) => .run i
        | .error .endOfStream => .stuck (.cursorPastInput .dec)
      | none => .stuck .workUnwritten
  | .done => .waiting

/-- The enabled step of an engine. -/
def State.select (s : State) : EngineId → Selected
  | .enc => s.enc.select
  | .dec => s.dec.select

/-- DEC as D.UNNEG leaves it for the logical stream `bs`: scanning from its first byte (log entry 12). -/
def Dec.loadStream (d : Dec) (bs : List Byte) : Dec :=
  { phase := .scan
    eng := { d.eng with inBuf := Memory.writeSeq [] 0 (neg4 bs), inLen := bs.length, outLen := 0, cur := 0 }
    work := Memory.writeSeq [] 0 bs
    err := false
    cause := 0 }

end Sys2Proof.Machine
end

