-- ==== Sys2Proof/Machine/Commands.lean ====
section
/-! DEFINITION. The host's commands (42_commands.md). -/

namespace Sys2Proof.Machine

/-- ENC.START (R90); without meaning while ENC is BUSY (R92, U8). -/
def execEncStart (s : State) : Result :=
  if s.enc.busy then .refused (.startWhileBusy .enc) else .next (s.setEnc s.enc.start)

/-- DEC.START (R91); without meaning while DEC is BUSY (R92, U8). -/
def execDecStart (s : State) : Result :=
  if s.dec.busy then .refused (.startWhileBusy .dec) else .next (s.setDec s.dec.start)

end Sys2Proof.Machine
end

