-- ==== Sys2Proof/Machine/Decoder.lean ====
section
/-! DEFINITION. The decoder's steps (41_decoder.md). -/

namespace Sys2Proof.Machine

/-- One successful scan step of DEC (R77 to R79): enabled while scanning, when the segment stands at CUR; the bytes it
stands for are appended and its own `n` bytes passed. -/
def decScan (here : Bool) (bs : List Byte) (n : Nat) (s : State) : Result :=
  if s.dec.phase = .scan ∧ here then .next (s.setDec { s.dec with eng := (s.dec.eng.emit bs).advance n })
  else .refused .notEnabled

/-- The byte at CUR is the literal `b` (R77). -/
def Dec.literalHere (d : Dec) (b : Byte) : Bool :=
  match d.byteAt? 0 with
  | some v => v == b && b != Config.marker
  | none => false

/-- A run descriptor whose control byte satisfies `p` stands at CUR (R78, R79). -/
def Dec.descriptorHere (d : Dec) (p : Byte → Bool) : Bool :=
  match d.byteAt? 0, d.byteAt? 1 with
  | some m, some c => m == Config.marker && p c
  | _, _ => false

/-- D.LIT (R77). -/
def execLit (b : Byte) (s : State) : Result := decScan (s.dec.literalHere b) [b] 1 s

/-- D.ZRUN (R78). -/
def execZrun (n : Nat) (s : State) : Result :=
  decScan (s.dec.descriptorHere fun c => !isFrunControl c && zrunLength c == n) (List.replicate n Config.fillZ) 2 s

/-- D.FRUN (R79): bits 6:5 are dropped, and no 0x00 is emitted. -/
def execFrun (x : BitVec 2) (n : Nat) (s : State) : Result :=
  decScan (s.dec.descriptorHere fun c => isFrunControl c && frunUnused c == x && frunLength c == n)
    (List.replicate n Config.fillF) 2 s

/-- D.TRUNC (R80): a marker at the last index; `WORK[CUR + 1]` is not read. -/
def execTrunc (s : State) : Result :=
  if s.dec.phase = .scan ∧ s.dec.byteAt? 0 = some Config.marker ∧ s.dec.eng.cur + 1 = s.dec.eng.inLen then
    .next (s.setDec s.dec.raiseMalformed)
  else .refused .notEnabled

/-- D.UNNEG (R76): `WORK` becomes `Neg4(IN)`; `IN` is not changed. -/
def execDUnneg (s : State) : Result :=
  if s.dec.phase = .pre then
    .next (s.setDec { s.dec with phase := .scan, work := s.dec.work.writeSeq 0 (neg4 s.dec.inSeq) })
  else .refused .notEnabled

/-- D.END (R81). -/
def execDEnd (s : State) : Result :=
  if s.dec.phase = .scan ∧ s.dec.eng.cur = s.dec.eng.inLen then .next (s.setDec { s.dec with phase := .done })
  else .refused .notEnabled

end Sys2Proof.Machine
end

