-- ==== Sys2Proof/Machine/Encoder.lean ====
section
/-! DEFINITION. The encoder's steps (40_encoder.md). -/

namespace Sys2Proof.Machine

/-- One scan step of ENC (R62 to R64): enabled while scanning, when the detector finds `la` at CUR; the generator's
bytes are appended and the consumed bytes passed. -/
def encScan (la : LookAhead) (s : State) : Result :=
  if s.enc.phase = .scan ∧ classify s.enc.inSeq s.enc.eng.cur = some la then
    .next (s.setEnc { s.enc with eng := (s.enc.eng.emit la.emits).advance la.width })
  else .refused .notEnabled

/-- E.LIT (R62). -/
def execELit (b : Byte) (s : State) : Result := encScan (.literal b) s

/-- E.ZRUN (R63): the cursor advances by `z`, not by `z + 1` (C5). -/
def execEZrun (z : Nat) (s : State) : Result := encScan (.zrun z) s

/-- E.FRUN (R64): the triggering 0x00 is consumed and not represented in the output (C1). -/
def execEFrun (f : Nat) (s : State) : Result := encScan (.frun f) s

/-- E.ENDSCAN (R65). -/
def execEEndscan (s : State) : Result :=
  if s.enc.phase = .scan ∧ s.enc.eng.cur = s.enc.eng.inLen then .next (s.setEnc { s.enc with phase := .post })
  else .refused .notEnabled

/-- E.NEG (R66): the header window of OUT is read, inverted and rewritten in one step (R35). -/
def execENeg (s : State) : Result :=
  if s.enc.phase = .post then
    match s.enc.eng.outBuf.readSeq? 0 (min Config.hdr s.enc.eng.outLen) with
    | some bs =>
      .next (s.setEnc { s.enc with
        phase := .done
        eng := { s.enc.eng with outBuf := s.enc.eng.outBuf.writeSeq 0 (bs.map (· ^^^ Config.negMask)) } })
    | none => .fault .outUnwritten
  else .refused .notEnabled

end Sys2Proof.Machine
end

