-- ==== Sys2Proof/Machine/Dispatch.lean ====
section
/-! DEFINITION. The dispatch of an instruction to its meaning: one arm per constructor of Instr. -/

namespace Sys2Proof.Machine

/-- What an instruction does to the machine. -/
def exec (i : Instr) (s : State) : Host.Outcome State Fault Refusal :=
  match i with
  | .lit b => Sys2Proof.Machine.execLit b s
  | .zrun n => Sys2Proof.Machine.execZrun n s
  | .frun x n => Sys2Proof.Machine.execFrun x n s
  | .trunc => Sys2Proof.Machine.execTrunc s
  | .eLit b => Sys2Proof.Machine.execELit b s
  | .eZrun z => Sys2Proof.Machine.execEZrun z s
  | .eFrun f => Sys2Proof.Machine.execEFrun f s
  | .eEndscan => Sys2Proof.Machine.execEEndscan s
  | .eNeg => Sys2Proof.Machine.execENeg s
  | .dUnneg => Sys2Proof.Machine.execDUnneg s
  | .dEnd => Sys2Proof.Machine.execDEnd s
  | .encStart => Sys2Proof.Machine.execEncStart s
  | .decStart => Sys2Proof.Machine.execDecStart s

end Sys2Proof.Machine
end

