-- ==== Sys2Proof/Machine/HostPort.lean ====
section
/-! DEFINITION. The host's side of an engine (42_commands.md, R21, R97): its moves and its reads. -/

namespace Sys2Proof.Machine

/-- A reset event of one engine (R135), at any time (R136). The other engine is not touched (R2). -/
def State.resetEngine (s : State) : EngineId → State
  | .enc => s.setEnc s.enc.resetEvent
  | .dec => s.setDec s.dec.resetEvent

/-- A host write to the input side of an engine; without meaning while it is BUSY (R140, U9). -/
def writeInput (e : EngineId) (f : Engine → Engine) (s : State) : Result :=
  if s.busy e then .refused (.inputWriteWhileBusy e) else .next (s.setEng e (f (s.eng e)))

/-- A move of the host (R20, R93, R97) or a reset event. A write to CTRL without bit 0 has no effect (R20). -/
def hostMove (m : HostMove) (s : State) : Result :=
  match m with
  | .writeIn e k b => writeInput e (·.writeIn k b) s
  | .writeInLen e n => writeInput e (·.writeInLen n) s
  | .writeCtrl e v =>
    match decodeCtrl e v with
    | some i => exec i s
    | none => .next s
  | .reset e => .next (s.resetEngine e)

/-! ## What the host reads (R21, R94). No read changes the state. `none`: any value (U5, U6). -/

/-- Reading CTRL returns 0 (R20). -/
def readCtrl (_ : EngineId) (_ : State) : Byte := 0

/-- STATUS is always readable and exact (R97, U5). -/
def readStatus (e : EngineId) (s : State) : Byte := s.status e

/-- CAUSE (R19); any value while BUSY (R141, U5). -/
def readCause (e : EngineId) (s : State) : Option Byte := if s.busy e then none else some (s.cause e)

/-- IN_LEN, readable while not BUSY (R21, log entry 15). -/
def readInLen (e : EngineId) (s : State) : Option Nat := if s.busy e then none else some (s.eng e).inLen

/-- OUT_LEN; any value while BUSY (R141, U5). -/
def readOutLen (e : EngineId) (s : State) : Option Nat := if s.busy e then none else some (s.eng e).outLen

/-- OUT[k]: its byte while DONE and below OUT_LEN, else any value (R97, U5, U6). -/
def readOut (e : EngineId) (k : Nat) (s : State) : Option Byte :=
  if s.done e ∧ k < (s.eng e).outLen then (s.eng e).outBuf.read? k else none

/-- The result of a finished operation (R18, R94): the output, or the error; none before DONE. -/
def result (e : EngineId) (s : State) : Option (Except Byte (List Byte)) :=
  if s.done e then
    if s.err e then some (.error (s.cause e))
    else (s.eng e).outSeq?.map .ok
  else none

end Sys2Proof.Machine
end

