-- ==== Sys2Proof/Machine/Agents.lean ====
section
/-! DEFINITION. Who moves next (R10, log entry 6), and what its move does. -/

namespace Sys2Proof.Machine

/-- One turn of an engine: its enabled step; an engine that waits for the host stays as it is (R17, R130). -/
def engineStep (e : EngineId) (s : State) : Result :=
  match s.select e with
  | .waiting => .next s
  | .run i => exec i s
  | .stuck f => .fault f

/-- What the next mover does. -/
def runInput (i : Input) (s : State) : Result :=
  match i with
  | .host m => hostMove m s
  | .tick e => engineStep e s

/-- With no move left on the agenda: ENC while it is BUSY, then DEC (R10: either may run to completion alone). -/
def State.defaultEngine (s : State) : EngineId := if s.enc.busy then .enc else .dec

/-- The next move and the machine with that move taken off the agenda. -/
def State.turn (s : State) : Input × State :=
  match s.agenda with
  | [] => (.tick s.defaultEngine, s)
  | i :: rest => (i, { s with agenda := rest })

/-- `k` turns of one engine alone. -/
def runEngine (e : EngineId) : Nat → State → Result
  | 0, s => .next s
  | k + 1, s =>
    match engineStep e s with
    | .next t => runEngine e k t
    | .fault f => .fault f
    | .refused r => .refused r

end Sys2Proof.Machine
end

