-- ==== Sys2Proof/Machine/Step.lean ====
section
/-! DEFINITION. One step of the machine, and how the host places an instruction where the step finds it. -/

namespace Sys2Proof.Machine

/-- One step: the next mover's move (log entry 6). -/
def step (s : State) : Host.Outcome State Fault Refusal := runInput s.turn.1 s.turn.2

/-- The machine whose very next step is DEC's, scanning the stream that is the table word's bytes (log entry 12): the
whole stream is that one segment, so a TRUNC word is its last byte. -/
def State.withFetchWord (s : State) (nbits w : Nat) : State :=
  { s with dec := s.dec.loadStream (tableBytes nbits w), agenda := .tick .dec :: s.agenda }

end Sys2Proof.Machine
end

