-- ==== Sys2Proof/Machine/Functions.lean ====
section
/-! DEFINITION. The two functions of the document on byte sequences (R8, R68, R84), without any engine, and the
functions the laws of 44_laws.md speak of. -/

namespace Sys2Proof.Machine

/-- The error of `decompress` (R120): its one kind. -/
inductive DecodeFailure where
  | malformedStream
  deriving DecidableEq, Repr

/-! ## Encoding -/

/-- The productions of the encoder on a byte sequence in order (R60, R68), at most `fuel` of them. -/
def productionsFuel : Nat → List Byte → List LookAhead
  | 0, _ => []
  | fuel + 1, s =>
    match classify s 0 with
    | none => []
    | some la => la :: productionsFuel fuel (s.drop la.width)

/-- All productions: each consumes at least one byte (R69), so the length is fuel enough. -/
def productions (b : List Byte) : List LookAhead := productionsFuel b.length b

/-- `Elog` (R68): the encoder's logical output. -/
def elog (b : List Byte) : List Byte := (productions b).flatMap LookAhead.emits

/-- `compress` (R68). -/
def compress (b : List Byte) : List Byte := neg4 (elog b)

/-- The encoder takes an E.FRUN step on `b` (R100 (b)). -/
def takesFrun (b : List Byte) : Prop := ∃ f, LookAhead.frun f ∈ productions b

/-! ## Decoding -/

/-- `Dlog` (R84), the length of a 0xFF-run read with the mask `flen` (R4). -/
def dlogWith (flen : Byte) : List Byte → Except DecodeFailure (List Byte)
  | [] => .ok []
  | [b] => if b = Config.marker then .error .malformedStream else .ok [b]
  | b :: c :: rest =>
    if b = Config.marker then
      let run :=
        if isFrunControl c then List.replicate ((c &&& flen).toNat + 1) Config.fillF
        else List.replicate (zrunLength c) Config.fillZ
      match dlogWith flen rest with
      | .ok r => .ok (run ++ r)
      | .error e => .error e
    else
      match dlogWith flen (c :: rest) with
      | .ok r => .ok (b :: r)
      | .error e => .error e

/-- `Dlog` (R84) with `FLEN_MASK` (D5). -/
def dlog (s : List Byte) : Except DecodeFailure (List Byte) := dlogWith Config.flenMask s

/-- `decompress` (R84). -/
def decompress (w : List Byte) : Except DecodeFailure (List Byte) := dlog (neg4 w)

/-! ## The functions of the laws -/

/-- `strip` (R100 (a)), by the exact characterisation: `zeros` is the length of the zero run that ends just before;
of a maximal zero run of length 1 mod 128 directly followed by 0xFF the last zero is deleted. -/
def stripFrom : Nat → List Byte → List Byte
  | _, [] => []
  | zeros, b :: rest =>
    if b = Config.fillZ then
      if (zeros + 1) % 128 = 1 ∧ rest.head? = some Config.fillF then stripFrom (zeros + 1) rest
      else b :: stripFrom (zeros + 1) rest
    else b :: stripFrom 0 rest

/-- `strip` (R100 (a)). -/
def strip (b : List Byte) : List Byte := stripFrom 0 b

/-- `b` holds a maximal zero run of length 1 mod 128 directly followed by 0xFF (R100 (b)): `pre` does not end in a
zero, so the run is maximal to the left, and the byte after it is 0xFF, so it is maximal to the right. -/
def hasTriggerRun (b : List Byte) : Prop :=
  ∃ pre post len, b = pre ++ List.replicate len Config.fillZ ++ Config.fillF :: post ∧
    pre.getLast? ≠ some Config.fillZ ∧ len % 128 = 1

/-- What a segment stands for under `Einv` (R109), which is NOT part of the hardware. -/
def einvSegment : Instr → List Byte
  | .lit b => [b]
  | .zrun n => List.replicate n Config.fillZ
  | .frun _ n => Config.fillZ :: List.replicate n Config.fillF
  | .trunc => []
  | .eLit _ => []
  | .eZrun _ => []
  | .eFrun _ => []
  | .eEndscan => []
  | .eNeg => []
  | .dUnneg => []
  | .dEnd => []
  | .encStart => []
  | .decStart => []

/-- `Einv` (R109). -/
def einv (s : List Byte) : List Byte := (segments s).flatMap einvSegment

/-- A logical byte sequence that the grammar of R46 gives: its segmentation has no lone marker (R55 (a)). -/
def isStream (s : List Byte) : Prop := Instr.trunc ∉ segments s

/-- R57 (a): the FRUN control byte is 0x80 to 0x9F. -/
def canonicalSegment : Instr → Bool
  | .lit _ => true
  | .zrun _ => true
  | .frun x _ => x == 0
  | .trunc => true
  | .eLit _ => true
  | .eZrun _ => true
  | .eFrun _ => true
  | .eEndscan => true
  | .eNeg => true
  | .dUnneg => true
  | .dEnd => true
  | .encStart => true
  | .decStart => true

/-- R57 (b), (c), (d): what may stand directly after a segment. -/
def mayFollow : Instr → Instr → Bool
  | .zrun n, .zrun _ => decide (128 ≤ n)
  | .zrun n, .frun _ _ => decide (128 ≤ n)
  | .zrun n, .lit b => !(n == 1 && b == Config.fillF)
  | .frun _ n, .lit b => !(decide (n < 32) && b == Config.fillF)
  | _, _ => true

/-- The streams R57 describes: a stream of R46 with (a) to (d). -/
def isCanonical (s : List Byte) : Prop :=
  isStream s ∧ (∀ i ∈ segments s, canonicalSegment i) ∧ (segments s).IsChain fun i j => mayFollow i j

end Sys2Proof.Machine
end

