-- ==== Sys2Proof/Safety.lean ====
section
/-! DEFINITION. What the claims speak of: the state after a step, and the invariants of R26. -/

namespace Sys2Proof.Machine

/-- The next state of a result, if it is one. -/
def stateAfter : Result → Option State
  | .next t => some t
  | .fault _ => none
  | .refused _ => none

/-- `k` steps, stopping at the first fault or refusal. -/
def stepN : Nat → State → Result
  | 0, s => .next s
  | k + 1, s =>
    match step s with
    | .next t => stepN k t
    | .fault f => .fault f
    | .refused r => .refused r

/-- The host's moves of one operation (R93, R95): write the bytes `b` and `IN_LEN`, then `v` to CTRL. -/
def operationMoves (e : EngineId) (b : List Byte) (v : Byte) : List Input :=
  (b.mapIdx fun k x => .host (.writeIn e k x)) ++ [.host (.writeInLen e b.length), .host (.writeCtrl e v)]

/-- The buffers of an engine are canonical and every byte of `OUT` below `OUT_LEN` has been written (R15, R27). -/
structure Engine.Inv (e : Engine) : Prop where
  inWf : e.inBuf.wf
  outWf : e.outBuf.wf
  outWritten : ∀ k, k < e.outLen → e.outBuf.read? k ≠ none

/-- `i` is the cursor at a step boundary of a scan of `b` from its start (R26 (b), R61). -/
inductive Boundary (b : List Byte) : Nat → Prop
  | start : Boundary b 0
  | step {i : Nat} {la : LookAhead} : Boundary b i → classify b i = some la → Boundary b (i + la.width)

/-- R26 for ENC, read as of the running operation (log entry 13). -/
structure Enc.Inv (e : Enc) : Prop where
  eng : e.eng.Inv
  /-- R26 (a). -/
  curLe : e.busy → e.eng.cur ≤ e.eng.inLen
  /-- R26 (b), at a step boundary. -/
  scan : e.phase = .scan →
    Boundary e.inSeq e.eng.cur ∧ e.eng.outSeq? = some (elog (e.inSeq.take e.eng.cur))
  /-- After the scan the whole logical output stands in `OUT` (R66, R72). -/
  post : e.phase = .post → e.eng.cur = e.eng.inLen ∧ e.eng.outSeq? = some (elog e.inSeq)
  /-- No operation since reset (R17, R25). -/
  idle : e.phase = .idle → e.eng.cur = 0 ∧ e.eng.outLen = 0

/-- R26 for DEC, read as of the running operation (log entry 13). -/
structure Dec.Inv (d : Dec) : Prop where
  eng : d.eng.Inv
  workWf : d.work.wf
  /-- R26 (a). -/
  curLe : d.busy → d.eng.cur ≤ d.eng.inLen
  /-- Between DEC.START and D.UNNEG (R91). -/
  pre : d.phase = .pre → d.eng.cur = 0 ∧ d.eng.outLen = 0
  /-- `WORK = Neg4(IN)` (R16), and R26 (c). -/
  scan : d.phase = .scan →
    d.workSeq? = some (neg4 d.inSeq) ∧
    ∃ out, d.eng.outSeq? = some out ∧ dlog ((neg4 d.inSeq).take d.eng.cur) = .ok out
  /-- No operation since reset (R17, R25). -/
  idle : d.phase = .idle → d.eng.cur = 0 ∧ d.eng.outLen = 0
  /-- R26 (d). -/
  err : d.err → d.phase = .done ∧ d.eng.outLen = 0 ∧ d.cause = Config.errCodeMalformed
  /-- R19: CAUSE is 0 when ERR is 0. -/
  noErr : d.err = false → d.cause = 0

/-- The machine's invariant. -/
structure State.Inv (s : State) : Prop where
  enc : s.enc.Inv
  dec : s.dec.Inv

/-- The host's next move breaks a duty of R97: an input write or a START while the engine is BUSY. -/
def State.hostBreaksDuty (s : State) : Prop :=
  ∃ e rest, s.busy e ∧
    ((∃ k b, s.agenda = .host (.writeIn e k b) :: rest) ∨
     (∃ n, s.agenda = .host (.writeInLen e n) :: rest) ∨
     (∃ v : Byte, v.getLsbD 0 = true ∧ s.agenda = .host (.writeCtrl e v) :: rest))

end Sys2Proof.Machine
end

