-- ==== Sys2Proof/Certificates/Slice0/Obligations.lean ====
section
/-! DEFINITION. The statements for the provers. Each docstring names the rule it formalises. -/

open Sys2Proof Sys2Proof.Machine

/-! ## Reset, registers, reads -/

/-- R25, R135: the registers of both engines after reset. What the buffers hold is unspecified: no host read of OUT
promises a byte. What is read in IDLE is the model's choice (log entry 15). -/
def Obligations.ResetLeavesBothEnginesIdle : Prop :=
  State.reset.enc.phase = .idle ∧ State.reset.dec.phase = .idle ∧
  ∀ e, readStatus e State.reset = 0 ∧ readCause e State.reset = some 0 ∧ readCtrl e State.reset = 0 ∧
    (State.reset.eng e).cur = 0 ∧ readInLen e State.reset = some 0 ∧ readOutLen e State.reset = some 0 ∧
    ∀ k, readOut e k State.reset = none

/-- R135, R136, R2: a reset event, at any time and in any phase, leaves its engine's registers as after reset and the
other engine untouched. What is read in IDLE is the model's choice (log entry 15). -/
def Obligations.ResetEventAbandonsAnyOperation : Prop :=
  ∀ (s : State) (e : EngineId), ∃ t, hostMove (.reset e) s = .next t ∧
    readStatus e t = 0 ∧ readCause e t = some 0 ∧ (t.eng e).cur = 0 ∧ (t.eng e).inLen = 0 ∧ (t.eng e).outLen = 0 ∧
    t.agenda = s.agenda ∧
    (e = .enc → t.dec = s.dec ∧ t.enc.phase = .idle) ∧ (e = .dec → t.enc = s.enc ∧ t.dec.phase = .idle)

/-- R18: every bit of STATUS, for both engines. -/
def Obligations.StatusBitsFollowPhase : Prop :=
  ∀ s : State,
    ((readStatus .enc s).getLsbD 0 = true ↔ s.enc.phase = .scan ∨ s.enc.phase = .post) ∧
    ((readStatus .dec s).getLsbD 0 = true ↔ s.dec.phase = .pre ∨ s.dec.phase = .scan) ∧
    ((readStatus .enc s).getLsbD 1 = true ↔ s.enc.phase = .done) ∧
    ((readStatus .dec s).getLsbD 1 = true ↔ s.dec.phase = .done) ∧
    (readStatus .enc s).getLsbD 2 = false ∧
    ((readStatus .dec s).getLsbD 2 = true ↔ s.dec.err = true) ∧
    ∀ e, readStatus e s >>> 3 = 0 ∧ ¬ ((readStatus e s).getLsbD 0 = true ∧ (readStatus e s).getLsbD 1 = true)

/-- R18, R126: one step sets ERR only by D.TRUNC, and clears it only by DEC.START or a reset event of DEC. -/
def Obligations.ErrIsSetByTruncAndClearedByStartOrReset : Prop :=
  ∀ s t : State, step s = .next t →
    (s.dec.err = false → t.dec.err = true → s.turn.1 = .tick .dec ∧ s.dec.select = .run .trunc) ∧
    (s.dec.err = true → t.dec.err = false →
      (∃ v : Byte, v.getLsbD 0 = true ∧ s.turn.1 = .host (.writeCtrl .dec v)) ∨ s.turn.1 = .host (.reset .dec))

/-- R94: with the invariant, a finished operation can be read: the error with its cause and no output, or the whole of
OUT, byte by byte; and what is read stays the same until the next START or reset. -/
def Obligations.FinishedResultIsReadable : Prop :=
  ∀ (s : State) (e : EngineId), s.Inv → s.done e = true →
    (s.err e = true → e = .dec ∧ result e s = some (.error 1) ∧ readCause e s = some 1 ∧ readOutLen e s = some 0) ∧
    (s.err e = false → readCause e s = some 0 ∧
      ∃ out, result e s = some (.ok out) ∧ readOutLen e s = some out.length ∧
        ∀ k, k < out.length → readOut e k s = out[k]?) ∧
    ∀ t, step s = .next t → (∀ v : Byte, v.getLsbD 0 = true → s.turn.1 ≠ .host (.writeCtrl e v)) →
      s.turn.1 ≠ .host (.reset e) →
      result e t = result e s ∧ readCause e t = readCause e s ∧ readOutLen e t = readOutLen e s ∧
        ∀ k, readOut e k t = readOut e k s

/-! ## The encoder's steps -/

/-- R7, R61: `zrun` and `frun` are the largest counts of 0x00 and 0xFF bytes from an index on, capped at 128 and 32. -/
def Obligations.RunCountsAreLargestAndCapped : Prop :=
  ∀ (b : List Byte) (i : Nat),
    (zrun b i ≤ 128 ∧ (∀ k, k < zrun b i → b[i + k]? = some 0x00) ∧
      (zrun b i = 128 ∨ b[i + zrun b i]? ≠ some 0x00)) ∧
    (frun b i ≤ 32 ∧ (∀ k, k < frun b i → b[i + k]? = some 0xFF) ∧
      (frun b i = 32 ∨ b[i + frun b i]? ≠ some 0xFF) ∧ (b.length ≤ i → frun b i = 0))

/-- R62: E.LIT. -/
def Obligations.EncoderEmitsLiteral : Prop :=
  ∀ (s : State) (b : Byte), s.enc.phase = .scan → s.enc.inSeq[s.enc.eng.cur]? = some b → b ≠ 0x00 →
    ∃ t, exec (.eLit b) s = .next t ∧ t.enc.eng.outSeq? = s.enc.eng.outSeq?.map (· ++ [b]) ∧
      t.enc.eng.outLen = s.enc.eng.outLen + 1 ∧ t.enc.eng.cur = s.enc.eng.cur + 1 ∧
      t.status .enc = s.status .enc

/-- R63: E.ZRUN, for every count the detector can give; the control byte is the count less one and has bit 7 clear. -/
def Obligations.EncoderEmitsZeroRun : Prop :=
  ∀ (s : State) (z : Nat), s.enc.phase = .scan → s.enc.inSeq[s.enc.eng.cur]? = some 0x00 →
    z = zrun s.enc.inSeq s.enc.eng.cur → ¬ (z = 1 ∧ s.enc.inSeq[s.enc.eng.cur + 1]? = some 0xFF) →
    1 ≤ z ∧ z ≤ 128 ∧
    ∃ (t : State) (c : Byte), exec (.eZrun z) s = .next t ∧ c.toNat = z - 1 ∧ c.getLsbD 7 = false ∧
      t.enc.eng.outSeq? = s.enc.eng.outSeq?.map (· ++ [0x00, c]) ∧
      t.enc.eng.outLen = s.enc.eng.outLen + 2 ∧ t.enc.eng.cur = s.enc.eng.cur + z ∧
      t.enc.eng.cur ≤ t.enc.eng.inLen ∧ t.status .enc = s.status .enc

/-- R64: E.FRUN consumes its trigger and emits one descriptor with bits 6:5 zero. -/
def Obligations.EncoderEmitsFullRunAndConsumesTrigger : Prop :=
  ∀ (s : State) (f : Nat), s.enc.phase = .scan → s.enc.inSeq[s.enc.eng.cur]? = some 0x00 →
    s.enc.inSeq[s.enc.eng.cur + 1]? = some 0xFF → f = frun s.enc.inSeq (s.enc.eng.cur + 1) →
    1 ≤ f ∧ f ≤ 32 ∧
    ∃ (t : State) (c : Byte), exec (.eFrun f) s = .next t ∧ c = 0x80 ||| BitVec.ofNat 8 (f - 1) ∧
      c &&& 0x60 = 0 ∧ c.toNat = 0x80 + (f - 1) ∧
      t.enc.eng.outSeq? = s.enc.eng.outSeq?.map (· ++ [0x00, c]) ∧
      t.enc.eng.outLen = s.enc.eng.outLen + 2 ∧ t.enc.eng.cur = s.enc.eng.cur + 1 + f ∧
      t.enc.eng.cur ≤ t.enc.eng.inLen ∧ t.status .enc = s.status .enc

/-- R65: E.ENDSCAN changes PHASE and nothing else. -/
def Obligations.EncoderEndsScanAtEndOfInput : Prop :=
  ∀ s : State, s.enc.phase = .scan → s.enc.eng.cur = s.enc.eng.inLen →
    ∃ t, exec .eEndscan s = .next t ∧ t.enc.phase = .post ∧ t.enc.eng = s.enc.eng ∧
      t.status .enc = s.status .enc ∧ t.dec = s.dec ∧ t.agenda = s.agenda

/-- R66, R35: E.NEG inverts exactly the first min(4, OUT_LEN) bytes of OUT and ends the operation; every other byte and
the rest of the machine stay. -/
def Obligations.EncoderNegatesHeaderWindow : Prop :=
  ∀ s : State, s.enc.phase = .post → (∀ k, k < min 4 s.enc.eng.outLen → s.enc.eng.outBuf.read? k ≠ none) →
    ∃ t, exec .eNeg s = .next t ∧ t.enc.phase = .done ∧ t.status .enc = 0x02 ∧
      (∀ k, k < min 4 s.enc.eng.outLen →
        t.enc.eng.outBuf.read? k = (s.enc.eng.outBuf.read? k).map (· ^^^ 0xFF)) ∧
      (∀ k, min 4 s.enc.eng.outLen ≤ k → t.enc.eng.outBuf.read? k = s.enc.eng.outBuf.read? k) ∧
      t.enc.eng.outSeq? = s.enc.eng.outSeq?.map neg4 ∧ t.enc.eng.outLen = s.enc.eng.outLen ∧
      t.enc.eng.inBuf = s.enc.eng.inBuf ∧ t.enc.eng.inLen = s.enc.eng.inLen ∧ t.enc.eng.cur = s.enc.eng.cur ∧
      t.enc.eng.epoch = s.enc.eng.epoch ∧ t.cause .enc = s.cause .enc ∧ t.dec = s.dec ∧ t.agenda = s.agenda

/-- The "Enabled when" of R62 to R66: an encoder step has its effect in exactly these states. That E.NEG
stops on an unwritten byte is log entry 10. -/
def Obligations.EncoderStepEnabledExactlyWhen : Prop :=
  ∀ s : State,
    (∀ b, (∃ t, exec (.eLit b) s = .next t) ↔
      s.enc.phase = .scan ∧ classify s.enc.inSeq s.enc.eng.cur = some (.literal b)) ∧
    (∀ z, (∃ t, exec (.eZrun z) s = .next t) ↔
      s.enc.phase = .scan ∧ classify s.enc.inSeq s.enc.eng.cur = some (.zrun z)) ∧
    (∀ f, (∃ t, exec (.eFrun f) s = .next t) ↔
      s.enc.phase = .scan ∧ classify s.enc.inSeq s.enc.eng.cur = some (.frun f)) ∧
    ((∃ t, exec .eEndscan s = .next t) ↔ s.enc.phase = .scan ∧ s.enc.eng.cur = s.enc.eng.inLen) ∧
    ((∃ t, exec .eNeg s = .next t) ↔
      s.enc.phase = .post ∧ ∀ k, k < min 4 s.enc.eng.outLen → s.enc.eng.outBuf.read? k ≠ none)

/-- Frame of E.LIT, E.ZRUN, E.FRUN (R62 to R64, R31, R34): CUR, OUT_LEN and the one or two bytes from OUT_LEN on
change, nothing else does. -/
def Obligations.EncoderScanStepFrame : Prop :=
  ∀ (s t : State) (i : Instr) (n : Nat),
    (((∃ b, i = .eLit b) ∧ n = 1) ∨ ((∃ z, i = .eZrun z) ∧ n = 2) ∨ ((∃ f, i = .eFrun f) ∧ n = 2)) →
    exec i s = .next t →
    t.dec = s.dec ∧ t.agenda = s.agenda ∧ t.enc.phase = s.enc.phase ∧ t.enc.eng.inBuf = s.enc.eng.inBuf ∧
    t.enc.eng.inLen = s.enc.eng.inLen ∧ t.enc.eng.epoch = s.enc.eng.epoch ∧ t.status .enc = s.status .enc ∧
    t.cause .enc = s.cause .enc ∧
    ∀ a, ¬ (s.enc.eng.outLen ≤ a ∧ a < s.enc.eng.outLen + n) →
      t.enc.eng.outBuf.read? a = s.enc.eng.outBuf.read? a

/-! ## The decoder's steps -/

/-- R76: D.UNNEG makes WORK the un-negated copy of IN, whatever WORK held; IN, OUT, the registers and the rest of the
machine stay, and no byte of WORK beyond the copy is written. -/
def Obligations.DecoderUnnegatesCopyOfInput : Prop :=
  ∀ s : State, s.dec.phase = .pre →
    ∃ t, exec .dUnneg s = .next t ∧ t.dec.phase = .scan ∧ t.dec.workSeq? = some (neg4 s.dec.inSeq) ∧
      (∀ a, s.dec.eng.inLen ≤ a → t.dec.work.read? a = s.dec.work.read? a) ∧
      t.dec.eng = s.dec.eng ∧ t.dec.err = s.dec.err ∧ t.dec.cause = s.dec.cause ∧
      t.status .dec = s.status .dec ∧ t.enc = s.enc ∧ t.agenda = s.agenda

/-- R77: D.LIT. -/
def Obligations.DecoderPassesLiteral : Prop :=
  ∀ (s : State) (b : Byte), s.dec.phase = .scan → s.dec.eng.cur < s.dec.eng.inLen →
    s.dec.work.read? s.dec.eng.cur = some b → b ≠ 0x00 →
    ∃ t, exec (.lit b) s = .next t ∧ t.dec.eng.outSeq? = s.dec.eng.outSeq?.map (· ++ [b]) ∧
      t.dec.eng.outLen = s.dec.eng.outLen + 1 ∧ t.dec.eng.cur = s.dec.eng.cur + 1 ∧
      t.status .dec = s.status .dec

/-- R78: D.ZRUN, for every control byte with bit 7 clear. -/
def Obligations.DecoderExpandsZeroRun : Prop :=
  ∀ (s : State) (c : Byte) (len : Nat), s.dec.phase = .scan → s.dec.eng.cur + 1 < s.dec.eng.inLen →
    s.dec.work.read? s.dec.eng.cur = some 0x00 → s.dec.work.read? (s.dec.eng.cur + 1) = some c →
    c &&& 0x80 = 0 → len = (c &&& 0x7F).toNat + 1 →
    ∃ t, exec (.zrun len) s = .next t ∧
      t.dec.eng.outSeq? = s.dec.eng.outSeq?.map (· ++ List.replicate len 0x00) ∧
      t.dec.eng.outLen = s.dec.eng.outLen + len ∧ t.dec.eng.cur = s.dec.eng.cur + 2 ∧
      t.status .dec = s.status .dec

/-- R79 (with D5): D.FRUN, for every control byte with bit 7 set, bits 6:5 whatever they are. -/
def Obligations.DecoderExpandsFullRun : Prop :=
  ∀ (s : State) (c : Byte) (len : Nat), s.dec.phase = .scan → s.dec.eng.cur + 1 < s.dec.eng.inLen →
    s.dec.work.read? s.dec.eng.cur = some 0x00 → s.dec.work.read? (s.dec.eng.cur + 1) = some c →
    c &&& 0x80 ≠ 0 → len = (c &&& 0x1F).toNat + 1 →
    ∃ t, exec (.frun (c.extractLsb' 5 2) len) s = .next t ∧
      t.dec.eng.outSeq? = s.dec.eng.outSeq?.map (· ++ List.replicate len 0xFF) ∧
      t.dec.eng.outLen = s.dec.eng.outLen + len ∧ t.dec.eng.cur = s.dec.eng.cur + 2 ∧
      t.status .dec = s.status .dec

/-- R80, R122: D.TRUNC raises MalformedStream. CUR, IN, WORK, the storage of OUT and the rest of the machine stay, and no
byte of OUT is part of a result. -/
def Obligations.DecoderRaisesMalformedStream : Prop :=
  ∀ s : State, s.dec.phase = .scan → s.dec.eng.cur + 1 = s.dec.eng.inLen →
    s.dec.work.read? s.dec.eng.cur = some 0x00 →
    ∃ t, exec .trunc s = .next t ∧ t.dec.eng.outLen = 0 ∧ t.dec.cause = 1 ∧ t.dec.phase = .done ∧
      t.dec.err = true ∧ t.status .dec = 0x06 ∧ (∀ k, readOut .dec k t = none) ∧
      t.dec.eng.cur = s.dec.eng.cur ∧ t.dec.eng.inLen = s.dec.eng.inLen ∧ t.dec.eng.epoch = s.dec.eng.epoch ∧
      (∀ a, t.dec.eng.inBuf.read? a = s.dec.eng.inBuf.read? a) ∧ (∀ a, t.dec.work.read? a = s.dec.work.read? a) ∧
      (∀ a, t.dec.eng.outBuf.read? a = s.dec.eng.outBuf.read? a) ∧ t.enc = s.enc ∧ t.agenda = s.agenda

/-- R81: D.END keeps the output and ends the operation without an error; nothing but PHASE changes. -/
def Obligations.DecoderEndsAtEndOfInput : Prop :=
  ∀ s : State, s.dec.phase = .scan → s.dec.eng.cur = s.dec.eng.inLen →
    ∃ t, exec .dEnd s = .next t ∧ t.dec.phase = .done ∧ t.dec.err = s.dec.err ∧ t.dec.cause = s.dec.cause ∧
      t.dec.eng = s.dec.eng ∧ t.dec.work = s.dec.work ∧ (s.dec.err = false → t.status .dec = 0x02) ∧
      t.enc = s.enc ∧ t.agenda = s.agenda

/-- The "Enabled when" of R76 to R81: a decoder step has its effect in exactly these states. -/
def Obligations.DecoderStepEnabledExactlyWhen : Prop :=
  ∀ s : State,
    ((∃ t, exec .dUnneg s = .next t) ↔ s.dec.phase = .pre) ∧
    (∀ b, (∃ t, exec (.lit b) s = .next t) ↔ s.dec.phase = .scan ∧ s.dec.eng.cur < s.dec.eng.inLen ∧
      s.dec.work.read? s.dec.eng.cur = some b ∧ b ≠ 0x00) ∧
    (∀ n, (∃ t, exec (.zrun n) s = .next t) ↔ s.dec.phase = .scan ∧ s.dec.eng.cur + 1 < s.dec.eng.inLen ∧
      s.dec.work.read? s.dec.eng.cur = some 0x00 ∧
      ∃ c, s.dec.work.read? (s.dec.eng.cur + 1) = some c ∧ c &&& 0x80 = 0 ∧ n = (c &&& 0x7F).toNat + 1) ∧
    (∀ x n, (∃ t, exec (.frun x n) s = .next t) ↔ s.dec.phase = .scan ∧ s.dec.eng.cur + 1 < s.dec.eng.inLen ∧
      s.dec.work.read? s.dec.eng.cur = some 0x00 ∧
      ∃ c, s.dec.work.read? (s.dec.eng.cur + 1) = some c ∧ c &&& 0x80 ≠ 0 ∧ x = c.extractLsb' 5 2 ∧
        n = (c &&& 0x1F).toNat + 1) ∧
    ((∃ t, exec .trunc s = .next t) ↔ s.dec.phase = .scan ∧ s.dec.eng.cur + 1 = s.dec.eng.inLen ∧
      s.dec.work.read? s.dec.eng.cur = some 0x00) ∧
    ((∃ t, exec .dEnd s = .next t) ↔ s.dec.phase = .scan ∧ s.dec.eng.cur = s.dec.eng.inLen)

/-- Frame of D.LIT, D.ZRUN, D.FRUN (R77 to R79, R31, R34): CUR, OUT_LEN and the bytes appended change, nothing else. -/
def Obligations.DecoderScanStepFrame : Prop :=
  ∀ (s t : State) (i : Instr) (n : Nat),
    (((∃ b, i = .lit b) ∧ n = 1) ∨ i = .zrun n ∨ ∃ x, i = .frun x n) → exec i s = .next t →
    t.enc = s.enc ∧ t.agenda = s.agenda ∧ t.dec.phase = s.dec.phase ∧ t.dec.work = s.dec.work ∧
    t.dec.err = s.dec.err ∧ t.dec.cause = s.dec.cause ∧ t.dec.eng.inBuf = s.dec.eng.inBuf ∧
    t.dec.eng.inLen = s.dec.eng.inLen ∧ t.dec.eng.epoch = s.dec.eng.epoch ∧ t.status .dec = s.status .dec ∧
    ∀ a, ¬ (s.dec.eng.outLen ≤ a ∧ a < s.dec.eng.outLen + n) →
      t.dec.eng.outBuf.read? a = s.dec.eng.outBuf.read? a

/-! ## Commands and host moves -/

/-- R90: ENC.START, whatever an earlier operation left (R138); no byte of a buffer is written, and the rest of the
machine stays. -/
def Obligations.EncStartBeginsAnOperation : Prop :=
  ∀ s : State, s.busy .enc = false →
    ∃ t, exec .encStart s = .next t ∧ t.enc.eng.cur = 0 ∧ t.enc.eng.outLen = 0 ∧ t.enc.eng.outSeq? = some [] ∧
      t.cause .enc = 0 ∧ t.enc.phase = .scan ∧ t.status .enc = 0x01 ∧
      t.enc.eng.inLen = s.enc.eng.inLen ∧ t.enc.eng.epoch = s.enc.eng.epoch ∧
      (∀ a, t.enc.eng.inBuf.read? a = s.enc.eng.inBuf.read? a) ∧
      (∀ a, t.enc.eng.outBuf.read? a = s.enc.eng.outBuf.read? a) ∧ t.dec = s.dec ∧ t.agenda = s.agenda

/-- R91: DEC.START, whatever an earlier operation left (R138); it clears ERR and CAUSE (R126), writes no byte of a buffer,
and the rest of the machine stays. -/
def Obligations.DecStartBeginsAnOperation : Prop :=
  ∀ s : State, s.busy .dec = false →
    ∃ t, exec .decStart s = .next t ∧ t.dec.eng.cur = 0 ∧ t.dec.eng.outLen = 0 ∧ t.dec.eng.outSeq? = some [] ∧
      t.dec.cause = 0 ∧ t.dec.err = false ∧ t.dec.phase = .pre ∧ t.status .dec = 0x01 ∧
      t.dec.eng.inLen = s.dec.eng.inLen ∧ t.dec.eng.epoch = s.dec.eng.epoch ∧
      (∀ a, t.dec.eng.inBuf.read? a = s.dec.eng.inBuf.read? a) ∧
      (∀ a, t.dec.eng.outBuf.read? a = s.dec.eng.outBuf.read? a) ∧
      (∀ a, t.dec.work.read? a = s.dec.work.read? a) ∧ t.enc = s.enc ∧ t.agenda = s.agenda

/-- R92, R140, R142: a START or a write of IN or IN_LEN while the engine is BUSY is refused, under its own name
(log entry 8). -/
def Obligations.BusyEngineRefusesStartAndInputWrites : Prop :=
  ∀ (s : State) (e : EngineId), s.busy e = true →
    (∀ v : Byte, v.getLsbD 0 = true → hostMove (.writeCtrl e v) s = .refused (.startWhileBusy e)) ∧
    (∀ k b, hostMove (.writeIn e k b) s = .refused (.inputWriteWhileBusy e)) ∧
    ∀ n, hostMove (.writeInLen e n) s = .refused (.inputWriteWhileBusy e)

/-- R20: a write to CTRL is START exactly when bit 0 is 1; the other bits are ignored and a write of 0 to bit 0 has no
effect; CTRL reads 0. -/
def Obligations.CtrlWriteIsStartByBitZero : Prop :=
  ∀ (s : State) (v : Byte),
    hostMove (.writeCtrl .enc v) s = (if v.getLsbD 0 then exec .encStart s else .next s) ∧
    hostMove (.writeCtrl .dec v) s = (if v.getLsbD 0 then exec .decStart s else .next s) ∧
    ∀ e, readCtrl e s = 0

/-- R93: while an engine is not BUSY the host writes any byte of IN and any IN_LEN; the byte written is the byte there,
every other byte and everything else stays. Any index exists (log entry 1). -/
def Obligations.HostLoadsInput : Prop :=
  ∀ (s : State) (e : EngineId), s.busy e = false →
    (∀ k b, ∃ t, hostMove (.writeIn e k b) s = .next t ∧ (t.eng e).inBuf.read? k = some b ∧
      (∀ a, a ≠ k → (t.eng e).inBuf.read? a = (s.eng e).inBuf.read? a) ∧
      t = s.setEng e { s.eng e with inBuf := (t.eng e).inBuf }) ∧
    ∀ n, ∃ t, hostMove (.writeInLen e n) s = .next t ∧ (t.eng e).inLen = n ∧
      t = s.setEng e { s.eng e with inLen := n }

/-! ## The step -/

/-- A step of DEC runs the segment it decodes at CUR (R53, R58): on DEC's turn from the agenda, or with nothing on the
agenda and ENC not BUSY. The agenda and its default are the model's choice (log entry 6). -/
def Obligations.StepRunsDecodedSegment : Prop :=
  ∀ (s : State) (bs rest : List Byte) (i : Instr), s.dec.phase = .scan → s.dec.eng.cur < s.dec.eng.inLen →
    s.dec.window? = some bs → decode bs = .ok (i, rest) → i.wf = true →
    (∀ more, s.agenda = .tick .dec :: more → step s = exec i { s with agenda := more }) ∧
    (s.agenda = [] → s.enc.busy = false → step s = exec i s)

/-- A step of ENC runs the production the run detector finds at CUR (R60, R61). The agenda and its default are the
model's choice (log entry 6). -/
def Obligations.StepRunsDetectedProduction : Prop :=
  ∀ (s : State) (la : LookAhead), s.enc.phase = .scan → classify s.enc.inSeq s.enc.eng.cur = some la →
    (∀ more, s.agenda = .tick .enc :: more → step s = exec la.instr { s with agenda := more }) ∧
    (s.agenda = [] → step s = exec la.instr s)

/-- The steps that PHASE and the end of the buffer select (R65, R66, R76, R81), and an engine without a step of its own
(R17, R130), each on the engine's turn. The agenda, its default and the waiting turn are the model's choice (log
entries 6 and 7). -/
def Obligations.StepRunsPhaseStepOrWaits : Prop :=
  ∀ (s : State) (more : List Input),
    (s.agenda = .tick .enc :: more →
      (s.enc.phase = .scan → s.enc.eng.cur = s.enc.eng.inLen → step s = exec .eEndscan { s with agenda := more }) ∧
      (s.enc.phase = .post → step s = exec .eNeg { s with agenda := more }) ∧
      (s.enc.busy = false → step s = .next { s with agenda := more })) ∧
    (s.agenda = .tick .dec :: more →
      (s.dec.phase = .pre → step s = exec .dUnneg { s with agenda := more }) ∧
      (s.dec.phase = .scan → s.dec.eng.cur = s.dec.eng.inLen → step s = exec .dEnd { s with agenda := more }) ∧
      (s.dec.busy = false → step s = .next { s with agenda := more })) ∧
    (∀ m, s.agenda = .host m :: more → step s = hostMove m { s with agenda := more }) ∧
    (s.agenda = [] → s.enc.busy = false → s.dec.busy = false → step s = .next s)

/-! ## Encoding -/

/-- Words written out from R47 to R50 and R20, with the instruction each stands for; the table's packing is that of R58. -/
def Obligations.WrittenOutWordsDecode : Prop :=
  decode [0x2A] = .ok (.lit 0x2A, []) ∧ decode [0xFF, 0x00] = .ok (.lit 0xFF, [0x00]) ∧
  decode [0x00, 0x00] = .ok (.zrun 1, []) ∧ decode [0x00, 0x7F, 0x01] = .ok (.zrun 128, [0x01]) ∧
  decode [0x00, 0x80] = .ok (.frun 0 1, []) ∧ decode [0x00, 0x9F] = .ok (.frun 0 32, []) ∧
  decode [0x00, 0xE3] = .ok (.frun 3 4, []) ∧ decode [0x00] = .ok (.trunc, []) ∧
  decode [] = .error .endOfStream ∧
  decodeTableWord 16 0x0003 = some (.zrun 4) ∧ decodeTableWord 16 0x0081 = some (.frun 0 2) ∧
  decodeTableWord 8 0x00 = some .trunc ∧ decodeTableWord 8 0x41 = some (.lit 0x41) ∧
  decodeCtrl .enc 0x01 = some .encStart ∧ decodeCtrl .dec 0xFF = some .decStart ∧ decodeCtrl .enc 0xFE = none

/-- R54: the complete map of the control byte, its five rows (x is bits 6:5). -/
def Obligations.ControlByteMapIsComplete : Prop :=
  ∀ c : Byte,
    (c.toNat ≤ 0x7F → decodeDescriptor c = .zrun (c.toNat + 1)) ∧
    (0x80 ≤ c.toNat → c.toNat ≤ 0x9F → decodeDescriptor c = .frun 0 (c.toNat - 0x80 + 1)) ∧
    (0xA0 ≤ c.toNat → c.toNat ≤ 0xBF → decodeDescriptor c = .frun 1 ((c &&& 0x1F).toNat + 1)) ∧
    (0xC0 ≤ c.toNat → c.toNat ≤ 0xDF → decodeDescriptor c = .frun 2 ((c &&& 0x1F).toNat + 1)) ∧
    (0xE0 ≤ c.toNat → decodeDescriptor c = .frun 3 ((c &&& 0x1F).toNat + 1)) ∧
    (decodeDescriptor c).wf = true

/-- Decode and encode agree: every well-formed instruction that has bits is read back from them, and a segment other
than TRUNC is read back whatever follows it in the stream. -/
def Obligations.DecodeOfEncodeIsIdentity : Prop :=
  ∀ i : Instr, i.wf = true → ∀ p bs, encode i = some (p, bs) →
    decodeAt p bs = some i ∧ (p = .stream → i ≠ .trunc → ∀ rest, decode (bs ++ rest) = .ok (i, rest))

/-- R53, R46: a list of well-formed segments is the segmentation of its bytes, with or without a truncated marker at
the end. -/
def Obligations.StreamsSegmentUniquely : Prop :=
  ∀ is : List Instr, (∀ i ∈ is, i.wf = true ∧ i ≠ .trunc ∧ ∃ bs, encode i = some (.stream, bs)) →
    segments (encodeStream is) = is ∧ segments (encodeStream is ++ [0x00]) = is ++ [.trunc]

/-- R53: every byte sequence is the bytes of its segmentation, whose segments are well formed; TRUNC stands in it only
as the last (R55 (a)). -/
def Obligations.EveryByteSequenceIsItsSegmentation : Prop :=
  ∀ s : List Byte, encodeStream (segments s) = s ∧ (∀ i ∈ segments s, i.wf = true) ∧
    ∀ is js, segments s = is ++ Instr.trunc :: js → js = []

/-! ## Whole-machine rules -/

/-- R26, read as log entry 13 says: the invariant holds after reset. -/
def Obligations.ResetSatisfiesInvariant : Prop := State.reset.Inv

/-- R26 (a) to (d), R16, R19, and the canonical form of every buffer: every step from a state that meets the invariant
gives a state that meets it. R26 is read as log entry 13 says. -/
def Obligations.StepKeepsInvariant : Prop := ∀ s t : State, s.Inv → step s = .next t → t.Inv

/-- R132, R69, R85: from a state that meets the invariant a step never faults, and it answers a next state exactly
unless the host's move breaks a duty of R97 (log entries 6, 8 and 10 name what is the model's). -/
def Obligations.OnlyABadHostStopsTheMachine : Prop :=
  ∀ s : State, s.Inv → (∀ f, step s ≠ .fault f) ∧ ((∃ t, step s = .next t) ↔ ¬ s.hostBreaksDuty)

/-- R69, R85: while an engine is BUSY exactly one of its step rules is enabled, and otherwise none (refused as notEnabled,
log entry 9). -/
def Obligations.ExactlyOneStepIsEnabledWhileBusy : Prop :=
  ∀ (s : State) (e : EngineId), s.Inv →
    (s.busy e = true → ∃ i : Instr, (i.engine = e ∧ i.isCommand = false ∧ ∃ t, exec i s = .next t) ∧
      ∀ j : Instr, j.engine = e → j.isCommand = false → (∃ t, exec j s = .next t) → j = i) ∧
    (s.busy e = false → ∀ j : Instr, j.engine = e → j.isCommand = false → exec j s = .refused .notEnabled)

/-- R2, R10: an instruction of one engine leaves the whole state of the other, and the moves to come, as they are. -/
def Obligations.EnginesShareNoState : Prop :=
  ∀ (i : Instr) (s t : State), exec i s = .next t →
    t.agenda = s.agenda ∧ (i.engine = .enc → t.dec = s.dec) ∧ (i.engine = .dec → t.enc = s.enc)

/-- R10: the order in which the engines' steps interleave cannot be observed. -/
def Obligations.EngineStepsCommute : Prop :=
  ∀ s t u : State, engineStep .enc s = .next t → engineStep .dec s = .next u →
    ∃ v, engineStep .dec t = .next v ∧ engineStep .enc u = .next v

/-- R31, R24: no instruction of either engine changes IN or IN_LEN of any engine. -/
def Obligations.NoInstructionWritesInput : Prop :=
  ∀ (i : Instr) (s t : State), exec i s = .next t →
    ∀ e, (t.eng e).inBuf = (s.eng e).inBuf ∧ (t.eng e).inLen = (s.eng e).inLen ∧ t.enc.inSeq = s.enc.inSeq ∧
      t.dec.inSeq = s.dec.inSeq

/-- R13: CUR decreases only by START or a reset event, and every scan step other than D.TRUNC adds to it the amount the
rule gives. -/
def Obligations.CursorOnlyMovesForward : Prop :=
  (∀ (s t : State) (e : EngineId), step s = .next t → (t.eng e).cur < (s.eng e).cur →
    (∃ v : Byte, v.getLsbD 0 = true ∧ s.turn.1 = .host (.writeCtrl e v)) ∨ s.turn.1 = .host (.reset e)) ∧
  ∀ s t : State,
    (∀ b, exec (.eLit b) s = .next t → t.enc.eng.cur = s.enc.eng.cur + 1) ∧
    (∀ z, exec (.eZrun z) s = .next t → 1 ≤ z ∧ z ≤ 128 ∧ t.enc.eng.cur = s.enc.eng.cur + z) ∧
    (∀ f, exec (.eFrun f) s = .next t → 2 ≤ 1 + f ∧ 1 + f ≤ 33 ∧ t.enc.eng.cur = s.enc.eng.cur + (1 + f)) ∧
    (∀ b, exec (.lit b) s = .next t → t.dec.eng.cur = s.dec.eng.cur + 1) ∧
    (∀ n, exec (.zrun n) s = .next t → t.dec.eng.cur = s.dec.eng.cur + 2) ∧
    (∀ x n, exec (.frun x n) s = .next t → t.dec.eng.cur = s.dec.eng.cur + 2) ∧
    (exec .trunc s = .next t → t.dec.eng.cur = s.dec.eng.cur)

/-- R82, R16: in a state that meets the invariant, reading WORK is reading IN with the first four bytes inverted. -/
def Obligations.WorkIsInputUnnegatedOnDemand : Prop :=
  ∀ s : State, s.Inv → s.dec.phase = .scan → ∀ k, k < s.dec.eng.inLen →
    s.dec.work.read? k = s.dec.inSeq[k]?.map (· ^^^ (if k < 4 then 0xFF else 0x00))

/-! ## An operation is a function call -/

/-- R72, R95: from any state in which ENC is not BUSY, whatever was left in it and whatever DEC does, when the host
loads `b` and writes START, ENC's turns end in DONE with `compress b`, and further waiting changes nothing. The agenda is log entry 6. -/
def Obligations.EncoderOperationComputesCompress : Prop :=
  ∀ (s : State) (b : List Byte) (v : Byte) (n : Nat), s.busy .enc = false → v.getLsbD 0 = true →
    b.length + 2 ≤ n → s.agenda = operationMoves .enc b v ++ List.replicate n (.tick .enc) →
    ∃ t, stepN s.agenda.length s = .next t ∧ result .enc t = some (.ok (compress b)) ∧
      t.status .enc = 0x02 ∧ t.cause .enc = 0 ∧ t.enc.eng.cur = b.length ∧ t.enc.inSeq = b ∧ t.dec = s.dec ∧
      t.agenda = []

/-- R88, R95: the same for DEC and `decompress`, with either of its two outcomes (R132). -/
def Obligations.DecoderOperationComputesDecompress : Prop :=
  ∀ (s : State) (w : List Byte) (v : Byte) (n : Nat), s.busy .dec = false → v.getLsbD 0 = true →
    w.length + 2 ≤ n → s.agenda = operationMoves .dec w v ++ List.replicate n (.tick .dec) →
    ∃ t, stepN s.agenda.length s = .next t ∧ t.dec.inSeq = w ∧ t.enc = s.enc ∧ t.agenda = [] ∧
      (∀ r, decompress w = .ok r →
        result .dec t = some (.ok r) ∧ t.status .dec = 0x02 ∧ t.dec.cause = 0 ∧ t.dec.eng.cur = w.length) ∧
      (decompress w = .error .malformedStream →
        result .dec t = some (.error 1) ∧ t.status .dec = 0x06 ∧ t.dec.eng.outLen = 0 ∧
        t.dec.eng.cur = w.length - 1)

/-- R26 (d) to (f), R132: the step that ends an operation leaves, for the input that stands in IN, `compress` of it, the
`ok` of `decompress`, or its error. R26 (e) and (f) are read as log entry 13 says. -/
def Obligations.LastStepLeavesTheResult : Prop :=
  ∀ s t : State, s.Inv →
    (exec .eNeg s = .next t → result .enc t = some (.ok (compress t.enc.inSeq))) ∧
    (exec .dEnd s = .next t → ∃ r, decompress t.dec.inSeq = .ok r ∧ result .dec t = some (.ok r)) ∧
    (exec .trunc s = .next t → decompress t.dec.inSeq = .error .malformedStream ∧ result .dec t = some (.error 1))

/-! ## Laws of the codec -/

/-- R100 (a), (d): decoding an encoding gives `strip`, one byte shorter for every FRUN descriptor. -/
def Obligations.DecodeOfEncodeIsStrip : Prop :=
  ∀ b : List Byte, decompress (compress b) = .ok (strip b) ∧
    (strip b).length + ((segments (elog b)).filter Instr.isFrun).length = b.length

/-- R100 (b), (c): the three equivalent forms of the round-trip domain, and the smallest counter-example. -/
def Obligations.RoundTripExactlyWithoutTriggerRun : Prop :=
  (∀ b : List Byte, (decompress (compress b) = .ok b ↔ ¬ hasTriggerRun b) ∧ (takesFrun b ↔ hasTriggerRun b) ∧
    (takesFrun b ↔ ∃ i ∈ segments (elog b), i.isFrun = true)) ∧
  compress [0x00, 0xFF] = [0xFF, 0x7F] ∧ decompress [0xFF, 0x7F] = .ok [0xFF]

/-- R101: empty goes to empty, and nothing else does, in both directions. -/
def Obligations.OnlyEmptyCodesToEmpty : Prop :=
  (∀ b : List Byte, compress b = [] ↔ b = []) ∧ ∀ w : List Byte, decompress w = .ok [] ↔ w = []

/-- R102: an input of `L` zeros only, and the two vectors of the document on the wire. -/
def Obligations.ZeroRunIsChunkedBy128 : Prop :=
  (∀ L : Nat, 1 ≤ L → elog (List.replicate L 0x00) =
    (List.replicate ((L - 1) / 128) [(0x00 : Byte), 0x7F]).flatten ++ [0x00, BitVec.ofNat 8 ((L - 1) % 128)]) ∧
  compress (List.replicate 128 0x00) = [0xFF, 0x80] ∧
  compress (List.replicate 129 0x00) = [0xFF, 0x80, 0xFF, 0xFF]

/-- R103: a trigger with `M` bytes 0xFF after it: one descriptor, and the rest literals; the leading 0x00 is lost on
decode. With the two vectors of the document on the wire. -/
def Obligations.FullRunIsCappedAt32 : Prop :=
  (∀ M : Nat, 1 ≤ M →
    elog (0x00 :: List.replicate M 0xFF) =
      [0x00, 0x80 ||| BitVec.ofNat 8 (min M 32 - 1)] ++ List.replicate (M - 32) 0xFF ∧
    decompress (compress (0x00 :: List.replicate M 0xFF)) = .ok (List.replicate M 0xFF)) ∧
  compress (0x00 :: List.replicate 32 0xFF) = [0xFF, 0x60] ∧
  compress (0x00 :: List.replicate 33 0xFF) = [0xFF, 0x60, 0x00]

/-- R105, R114: exactly the streams that end in a lone marker fail; a last logical byte other than 0x00 makes decoding
succeed, and any byte appended mends a failing stream. -/
def Obligations.DecompressFailsExactlyOnLoneMarker : Prop :=
  ∀ w : List Byte,
    (decompress w = .error .malformedStream ↔ ∃ s r, neg4 w = s ++ [0x00] ∧ dlog s = .ok r) ∧
    (∀ x, (neg4 w).getLast? = some x → x ≠ 0x00 → ∃ r, decompress w = .ok r) ∧
    (decompress w = .error .malformedStream → ∀ x, ∃ r, decompress (w ++ [x]) = .ok r) ∧
    ((∃ r, decompress w = .ok r) ∨ decompress w = .error .malformedStream)

/-- R106: an input is its own logical encoding exactly when it holds no 0x00. -/
def Obligations.ElogFixesExactlyZeroFreeInputs : Prop :=
  (∀ b : List Byte, (elog b = b ↔ 0x00 ∉ b) ∧ (0x00 ∉ b → compress b = neg4 b)) ∧
  compress (List.replicate 5 0xFF) = [0x00, 0x00, 0x00, 0x00, 0xFF]

/-- R104, R107: the header negation byte by byte; it is its own inverse, so a round trip does not depend on it. -/
def Obligations.HeaderNegationIsPositionalInvolution : Prop :=
  (∀ (b : List Byte) (k : Nat), (compress b)[k]? =
    if k < min 4 (elog b).length then (elog b)[k]?.map (· ^^^ 0xFF) else (elog b)[k]?) ∧
  ∀ s : List Byte, neg4 (neg4 s) = s ∧ (neg4 s).length = s.length ∧ decompress (compress s) = dlog (elog s)

/-- R57, R108 (d): the encoder's outputs are exactly the streams R57 describes. -/
def Obligations.EncoderOutputsAreTheCanonicalStreams : Prop :=
  ∀ s : List Byte, (∃ b, elog b = s) ↔ isCanonical s

/-- R108: an encoding is a canonical stream that decodes, its control bytes in the ranges of R108, so the choice of
FLEN_MASK cannot affect a round trip. -/
def Obligations.EncodingIsWellFormed : Prop :=
  ∀ b : List Byte, isStream (elog b) ∧ (∃ r, dlog (elog b) = .ok r) ∧
    (∀ x n, Instr.frun x n ∈ segments (elog b) → x = 0 ∧ 1 ≤ n ∧ n ≤ 32) ∧
    (∀ n, Instr.zrun n ∈ segments (elog b) → 1 ≤ n ∧ n ≤ 128) ∧
    dlogWith 0x7F (elog b) = dlogWith 0x1F (elog b) ∧ isCanonical (elog b)

/-- R109: the encoder is injective, by the left inverse Einv (which is not part of the hardware). -/
def Obligations.EncoderIsInjective : Prop :=
  (∀ b : List Byte, einv (elog b) = b) ∧ (∀ b c : List Byte, compress b = compress c → b = c)

/-- R110: the size of an encoding, and inputs that reach the bounds. -/
def Obligations.EncodedSizeBounds : Prop :=
  (∀ b : List Byte, (b.length + 63) / 64 ≤ (compress b).length ∧ (compress b).length ≤ (3 * b.length + 1) / 2 ∧
    (compress b).length ≤ 2 * b.length) ∧
  ∀ m : Nat, (compress (List.replicate m [(0x00 : Byte), 0x01]).flatten).length = 3 * m ∧
    (compress ((List.replicate m [(0x00 : Byte), 0x01]).flatten ++ [0x00])).length = 3 * m + 2 ∧
    (compress (List.replicate (128 * m) 0x00)).length = 2 * m

/-- R111: the size of a decoding, and inputs that reach the upper bound. -/
def Obligations.DecodedSizeBounds : Prop :=
  (∀ w r : List Byte, decompress w = .ok r → (w.length + 1) / 2 ≤ r.length ∧ r.length ≤ 64 * w.length) ∧
  ∀ m : Nat, decompress (neg4 (List.replicate m [(0x00 : Byte), 0x7F]).flatten) = .ok (List.replicate (128 * m) 0x00)

/-- R112: `Dlog` is a homomorphism on complete streams; `Elog` is not one. -/
def Obligations.DlogIsHomomorphicOnCompleteStreams : Prop :=
  (∀ s r t : List Byte, dlog s = .ok r →
    (∀ r', dlog t = .ok r' → dlog (s ++ t) = .ok (r ++ r')) ∧ (∀ e, dlog t = .error e → dlog (s ++ t) = .error e)) ∧
  elog ([0x00] ++ [0x00]) ≠ elog [0x00] ++ elog [0x00]
end

