-- ==== Sys2Proof/Laws/Decode.lean ====
section
/-! SUPPORT. The laws of the control byte (R48, R49), of decoding one segment (R53) and of streams. -/

namespace Sys2Proof

/-! ## The control byte -/

theorem isFrunControl_eq_false_iff {c : Byte} : isFrunControl c = false ↔ c &&& 0x80 = 0 := by
  simp [isFrunControl, Config.typeBit]

theorem isFrunControl_eq_true_iff {c : Byte} : isFrunControl c = true ↔ c &&& 0x80 ≠ 0 := by
  simp [isFrunControl, Config.typeBit]

theorem isFrunControl_zrunControl {n : Nat} (h1 : 1 ≤ n) (h2 : n ≤ 128) : isFrunControl (zrunControl n) = false := by
  have h : ∀ k < 128, isFrunControl (zrunControl (k + 1)) = false := by decide
  simpa [Nat.sub_add_cancel h1] using h (n - 1) (by omega)

theorem zrunLength_zrunControl {n : Nat} (h1 : 1 ≤ n) (h2 : n ≤ 128) : zrunLength (zrunControl n) = n := by
  have h : ∀ k < 128, zrunLength (zrunControl (k + 1)) = k + 1 := by decide
  simpa [Nat.sub_add_cancel h1] using h (n - 1) (by omega)

theorem isFrunControl_frunControl (x : BitVec 2) {n : Nat} (h1 : 1 ≤ n) (h2 : n ≤ 32) :
    isFrunControl (frunControl x n) = true := by
  have h : ∀ x : BitVec 2, ∀ k < 32, isFrunControl (frunControl x (k + 1)) = true := by decide
  simpa [Nat.sub_add_cancel h1] using h x (n - 1) (by omega)

theorem frunLength_frunControl (x : BitVec 2) {n : Nat} (h1 : 1 ≤ n) (h2 : n ≤ 32) :
    frunLength (frunControl x n) = n := by
  have h : ∀ x : BitVec 2, ∀ k < 32, frunLength (frunControl x (k + 1)) = k + 1 := by decide
  simpa [Nat.sub_add_cancel h1] using h x (n - 1) (by omega)

theorem frunUnused_frunControl (x : BitVec 2) {n : Nat} (h1 : 1 ≤ n) (h2 : n ≤ 32) :
    frunUnused (frunControl x n) = x := by
  have h : ∀ x : BitVec 2, ∀ k < 32, frunUnused (frunControl x (k + 1)) = x := by decide
  simpa [Nat.sub_add_cancel h1] using h x (n - 1) (by omega)

/-- A ZRUN control byte is its length less one (R48). -/
theorem zrunControl_zrunLength {c : Byte} (h : isFrunControl c = false) : zrunControl (zrunLength c) = c := by
  revert c
  decide

/-- An FRUN control byte is its three fields (R49). -/
theorem frunControl_fields {c : Byte} (h : isFrunControl c = true) :
    frunControl (frunUnused c) (frunLength c) = c := by
  revert c
  decide

/-- ZRUN lengths are 1 to 128 (R52 (d)). -/
theorem zrunLength_range (c : Byte) : 1 ≤ zrunLength c ∧ zrunLength c ≤ 128 := by
  revert c
  decide

/-- FRUN lengths are 1 to 32 (R52 (d)). -/
theorem frunLength_range (c : Byte) : 1 ≤ frunLength c ∧ frunLength c ≤ 32 := by
  revert c
  decide

theorem decodeDescriptor_zrunControl {n : Nat} (h1 : 1 ≤ n) (h2 : n ≤ 128) :
    decodeDescriptor (zrunControl n) = .zrun n := by
  simp [decodeDescriptor, isFrunControl_zrunControl h1 h2, zrunLength_zrunControl h1 h2]

theorem decodeDescriptor_frunControl (x : BitVec 2) {n : Nat} (h1 : 1 ≤ n) (h2 : n ≤ 32) :
    decodeDescriptor (frunControl x n) = .frun x n := by
  simp [decodeDescriptor, isFrunControl_frunControl x h1 h2, frunUnused_frunControl x h1 h2,
    frunLength_frunControl x h1 h2]

/-- A descriptor is a ZRUN or an FRUN, never TRUNC (R54). -/
theorem decodeDescriptor_cases (c : Byte) :
    (isFrunControl c = false ∧ decodeDescriptor c = .zrun (zrunLength c)) ∨
      (isFrunControl c = true ∧ decodeDescriptor c = .frun (frunUnused c) (frunLength c)) := by
  unfold decodeDescriptor
  cases isFrunControl c <;> simp

theorem decodeDescriptor_wf (c : Byte) : (decodeDescriptor c).wf = true := by
  have hz := zrunLength_range c
  have hf := frunLength_range c
  rcases decodeDescriptor_cases c with ⟨-, h⟩ | ⟨-, h⟩ <;> rw [h] <;>
    simp only [Instr.wf, Bool.and_eq_true, decide_eq_true_eq]
  · exact hz
  · exact hf

theorem encode_decodeDescriptor (c : Byte) :
    encode (decodeDescriptor c) = some (.stream, [Config.marker, c]) := by
  rcases decodeDescriptor_cases c with ⟨hc, h⟩ | ⟨hc, h⟩ <;> rw [h] <;> simp only [encode]
  · rw [zrunControl_zrunLength hc]
  · rw [frunControl_fields hc]

/-! ## Operand ranges -/

@[simp] theorem wf_lit_iff {b : Byte} : (Instr.lit b).wf = true ↔ b ≠ 0x00 := by
  simp [Instr.wf, Config.marker]

@[simp] theorem wf_zrun_iff {n : Nat} : (Instr.zrun n).wf = true ↔ 1 ≤ n ∧ n ≤ 128 := by
  show _ ↔ 1 ≤ n ∧ n ≤ Config.zcap
  simp only [Instr.wf, Bool.and_eq_true, decide_eq_true_eq]

@[simp] theorem wf_frun_iff {x : BitVec 2} {n : Nat} : (Instr.frun x n).wf = true ↔ 1 ≤ n ∧ n ≤ 32 := by
  show _ ↔ 1 ≤ n ∧ n ≤ Config.fcap
  simp only [Instr.wf, Bool.and_eq_true, decide_eq_true_eq]

/-! ## One segment -/

@[simp] theorem decode_nil : decode [] = .error .endOfStream := rfl

theorem decode_literal {b : Byte} (h : b ≠ Config.marker) (rest : List Byte) :
    decode (b :: rest) = .ok (.lit b, rest) := by
  simp [decode, h]

@[simp] theorem decode_lone_marker : decode [Config.marker] = .ok (.trunc, []) := by
  simp [decode]

@[simp] theorem decode_descriptor (c : Byte) (rest : List Byte) :
    decode (Config.marker :: c :: rest) = .ok (decodeDescriptor c, rest) := by
  simp [decode]

/-! ## Streams -/

@[simp] theorem segments_nil : segments [] = [] := rfl

theorem segments_literal {b : Byte} (h : b ≠ Config.marker) (rest : List Byte) :
    segments (b :: rest) = .lit b :: segments rest := by
  cases rest <;> simp [segments, h]

@[simp] theorem segments_lone_marker : segments [Config.marker] = [.trunc] := by
  simp [segments]

@[simp] theorem segments_descriptor (c : Byte) (rest : List Byte) :
    segments (Config.marker :: c :: rest) = decodeDescriptor c :: segments rest := by
  simp [segments]

/-- Induction over a logical byte sequence by its segments (R53). -/
theorem stream_induction {P : List Byte → Prop} (nil : P []) (trunc : P [Config.marker])
    (literal : ∀ b rest, b ≠ Config.marker → P rest → P (b :: rest))
    (descriptor : ∀ c rest, P rest → P (Config.marker :: c :: rest)) : ∀ s, P s
  | [] => nil
  | [b] => if h : b = Config.marker then h ▸ trunc else literal b [] h nil
  | b :: c :: rest =>
    if h : b = Config.marker then
      h ▸ descriptor c rest (stream_induction nil trunc literal descriptor rest)
    else literal b (c :: rest) h (stream_induction nil trunc literal descriptor (c :: rest))

@[simp] theorem encodeStream_nil : encodeStream [] = [] := rfl

theorem encodeStream_cons {i : Instr} {bs : List Byte} (h : encode i = some (.stream, bs)) (is : List Instr) :
    encodeStream (i :: is) = bs ++ encodeStream is := by
  simp [encodeStream, h]

end Sys2Proof
end

