-- ==== Sys2Proof/Laws/Memory.lean ====
section
/-! SUPPORT. The laws of the buffers: read after write, the canonical form, and byte sequences. -/

namespace Sys2Proof.Machine

namespace Memory

@[simp] theorem read?_nil (k : Nat) : read? [] k = none := rfl

/-- Read after write. -/
theorem read?_write (m : Memory) (k : Nat) (v : Byte) (a : Nat) :
    (m.write k v).read? a = if a = k then some v else m.read? a := by
  induction m with
  | nil => simp [write, read?, eq_comm]
  | cons c m ih =>
    obtain ⟨b, x⟩ := c
    unfold write
    split
    · simp only [read?, eq_comm]
    · split
      · rename_i hkb
        subst hkb
        by_cases h : a = k
        · simp [read?, h]
        · have : ¬ k = a := by omega
          simp [read?, h, this]
      · by_cases h : b = a
        · have : ¬ a = k := by omega
          simp [read?, h, this]
        · simp [read?, h, ih]

@[simp] theorem read?_write_same (m : Memory) (k : Nat) (v : Byte) : (m.write k v).read? k = some v := by
  simp [read?_write]

/-- A write leaves every other index alone. -/
theorem read?_write_of_ne (m : Memory) {k a : Nat} (v : Byte) (h : a ≠ k) :
    (m.write k v).read? a = m.read? a := by
  simp [read?_write, h]

/-- The indices a write leaves listed. -/
theorem mem_keys_write {m : Memory} {k a : Nat} {v : Byte} (h : a ∈ (m.write k v).map Prod.fst) :
    a = k ∨ a ∈ m.map Prod.fst := by
  induction m with
  | nil => simpa [write] using h
  | cons c m ih =>
    obtain ⟨b, x⟩ := c
    unfold write at h
    split at h
    · simpa using h
    · split at h
      · simp at h ⊢
        tauto
      · simp only [List.map_cons, List.mem_cons] at h ⊢
        rcases h with h | h
        · exact .inr (.inl h)
        · rcases ih h with h | h
          · exact .inl h
          · exact .inr (.inr h)

/-- A write keeps the canonical form. -/
theorem wf_write {m : Memory} (h : m.wf) (k : Nat) (v : Byte) : (m.write k v).wf := by
  induction m with
  | nil => simp [write, wf]
  | cons c m ih =>
    obtain ⟨b, x⟩ := c
    have ⟨hlt, htl⟩ : (∀ a ∈ m.map Prod.fst, b < a) ∧ wf m := by
      simpa only [wf, List.map_cons, List.pairwise_cons] using h
    unfold write
    split
    · rename_i hk
      simp only [wf, List.map_cons, List.pairwise_cons, List.mem_cons]
      refine ⟨?_, hlt, htl⟩
      rintro a (rfl | ha)
      · exact hk
      · exact hk.trans (hlt a ha)
    · split
      · rename_i hk
        subst hk
        simpa only [wf, List.map_cons, List.pairwise_cons] using ⟨hlt, htl⟩
      · simp only [wf, List.map_cons, List.pairwise_cons]
        refine ⟨fun a ha => ?_, ih htl⟩
        rcases mem_keys_write ha with rfl | ha
        · omega
        · exact hlt a ha

/-- Writing a sequence keeps the canonical form. -/
theorem wf_writeSeq {m : Memory} (h : m.wf) (k : Nat) (bs : List Byte) : (m.writeSeq k bs).wf := by
  induction bs generalizing m k with
  | nil => exact h
  | cons b bs ih => exact ih (wf_write h k b) (k + 1)

/-- Reading after writing a sequence. -/
theorem read?_writeSeq (m : Memory) (k : Nat) (bs : List Byte) (a : Nat) :
    (m.writeSeq k bs).read? a = if k ≤ a ∧ a < k + bs.length then bs[a - k]? else m.read? a := by
  induction bs generalizing m k with
  | nil =>
    simp [writeSeq]
  | cons b bs ih =>
    simp only [writeSeq, ih, read?_write, List.length_cons]
    by_cases h : a = k
    · subst h
      simp
    · by_cases h2 : k + 1 ≤ a ∧ a < k + 1 + bs.length
      · have h3 : k ≤ a ∧ a < k + (bs.length + 1) := by omega
        have h4 : a - k = (a - (k + 1)) + 1 := by omega
        simp [h2, h3, h4]
      · have h3 : ¬ (k ≤ a ∧ a < k + (bs.length + 1)) := by omega
        simp only [if_neg h2, if_neg h3, if_neg h]

/-- Every byte outside a written sequence reads as before. -/
theorem read?_writeSeq_of_outside {m : Memory} {k a : Nat} {bs : List Byte} (h : ¬ (k ≤ a ∧ a < k + bs.length)) :
    (m.writeSeq k bs).read? a = m.read? a := by
  rw [read?_writeSeq, if_neg h]

/-- What reading a sequence says of each byte. -/
theorem readSeq?_eq_some_iff {m : Memory} {k n : Nat} {bs : List Byte} :
    m.readSeq? k n = some bs ↔ bs.length = n ∧ ∀ j, j < n → m.read? (k + j) = bs[j]? := by
  induction n generalizing k bs with
  | zero => cases bs <;> simp [readSeq?]
  | succ n ih =>
    have hstep : ∀ (c : Byte) (cs : List Byte),
        (cs.length = n ∧ m.read? k = some c ∧ ∀ j, j < n → m.read? (k + 1 + j) = cs[j]?) ↔
        ((c :: cs).length = n + 1 ∧ ∀ j, j < n + 1 → m.read? (k + j) = (c :: cs)[j]?) := by
      intro c cs
      constructor
      · rintro ⟨hl, h0, hj⟩
        refine ⟨by simp [hl], fun j hjn => ?_⟩
        cases j with
        | zero => simpa using h0
        | succ j => simpa [show k + (j + 1) = k + 1 + j by omega] using hj j (by omega)
      · rintro ⟨hl, hj⟩
        refine ⟨by simpa using hl, by simpa using hj 0 (by omega), fun j hjn => ?_⟩
        simpa [show k + 1 + j = k + (j + 1) by omega] using hj (j + 1) (by omega)
    cases bs with
    | nil =>
      simp only [readSeq?]
      split <;> simp
    | cons c cs =>
      rw [← hstep, readSeq?]
      split
      · rename_i b bs h1 h2
        rw [ih] at h2
        simp only [Option.some.injEq, List.cons.injEq]
        constructor
        · rintro ⟨rfl, rfl⟩
          exact ⟨h2.1, h1, h2.2⟩
        · rintro ⟨hl, h0, hj⟩
          refine ⟨by rw [h1] at h0; simpa using h0, List.ext_getElem? fun j => ?_⟩
          by_cases hjn : j < n
          · rw [← h2.2 j hjn, hj j hjn]
          · rw [List.getElem?_eq_none (by omega), List.getElem?_eq_none (by omega)]
      · rename_i hno
        simp only [reduceCtorEq, false_iff]
        rintro ⟨hl, h0, hj⟩
        exact hno c cs h0 (ih.2 ⟨hl, hj⟩)

/-- A sequence can be read exactly when each of its bytes was written. -/
theorem readSeq?_isSome_iff {m : Memory} {k n : Nat} :
    (∃ bs, m.readSeq? k n = some bs) ↔ ∀ j, j < n → m.read? (k + j) ≠ none := by
  constructor
  · rintro ⟨bs, h⟩ j hj
    obtain ⟨hl, hb⟩ := readSeq?_eq_some_iff.1 h
    rw [hb j hj]
    simp [hl, hj]
  · intro h
    refine ⟨(List.range n).map fun j => (m.read? (k + j)).getD 0, readSeq?_eq_some_iff.2 ⟨by simp, fun j hj => ?_⟩⟩
    obtain ⟨b, hb⟩ := Option.ne_none_iff_exists'.1 (h j hj)
    simp [hj, hb]

/-- Reading depends on the bytes read alone. -/
theorem readSeq?_congr {m m' : Memory} {k n : Nat} (h : ∀ j, j < n → m.read? (k + j) = m'.read? (k + j)) :
    m.readSeq? k n = m'.readSeq? k n := by
  have hiff : ∀ bs, m.readSeq? k n = some bs ↔ m'.readSeq? k n = some bs := by
    intro bs
    simp only [readSeq?_eq_some_iff]
    constructor <;> rintro ⟨hl, hb⟩ <;> refine ⟨hl, fun j hj => ?_⟩
    · rw [← h j hj, hb j hj]
    · rw [h j hj, hb j hj]
  exact Option.ext hiff

/-- Reading back exactly what was written. -/
@[simp] theorem readSeq?_writeSeq (m : Memory) (k : Nat) (bs : List Byte) :
    (m.writeSeq k bs).readSeq? k bs.length = some bs := by
  refine readSeq?_eq_some_iff.2 ⟨rfl, fun j hj => ?_⟩
  rw [read?_writeSeq, if_pos (by omega)]
  simp

/-- A read of two adjacent ranges. -/
theorem readSeq?_add (m : Memory) (k n l : Nat) :
    m.readSeq? k (n + l) = (m.readSeq? k n).bind fun bs => (m.readSeq? (k + n) l).map (bs ++ ·) := by
  induction n generalizing k with
  | zero => simp [readSeq?]
  | succ n ih =>
    rw [show n + 1 + l = (n + l) + 1 by omega]
    simp only [readSeq?, ih, show k + (n + 1) = k + 1 + n by omega]
    cases m.read? k <;> cases m.readSeq? (k + 1) n <;> simp
    cases m.readSeq? (k + 1 + n) l <;> simp

/-- Appending (R34): what stood below is kept, and the new bytes follow it. -/
theorem readSeq?_writeSeq_append (m : Memory) (n : Nat) (bs : List Byte) :
    (m.writeSeq n bs).readSeq? 0 (n + bs.length) = (m.readSeq? 0 n).map (· ++ bs) := by
  rw [readSeq?_add]
  have h1 : (m.writeSeq n bs).readSeq? 0 n = m.readSeq? 0 n :=
    readSeq?_congr fun j hj => read?_writeSeq_of_outside (by omega)
  rw [h1, Nat.zero_add, readSeq?_writeSeq]
  cases m.readSeq? 0 n <;> simp

end Memory

end Sys2Proof.Machine
end

