-- ==== Sys2Proof/Laws/Operands.lean ====
section
/-! SUPPORT. The laws of the run detector (R61) and of the header negation (R50). -/

namespace Sys2Proof.Machine

/-! ## Counting -/

theorem countRun_le_cap (v : Byte) (cap : Nat) (s : List Byte) : countRun v cap s ≤ cap := by
  induction cap generalizing s with
  | zero => simp [countRun]
  | succ cap ih =>
    cases s with
    | nil => simp [countRun]
    | cons b s =>
      unfold countRun
      split
      · exact Nat.succ_le_succ (ih s)
      · omega

theorem countRun_le_length (v : Byte) (cap : Nat) (s : List Byte) : countRun v cap s ≤ s.length := by
  induction cap generalizing s with
  | zero => simp [countRun]
  | succ cap ih =>
    cases s with
    | nil => simp [countRun]
    | cons b s =>
      unfold countRun
      split
      · exact Nat.succ_le_succ (ih s)
      · simp

/-- A count is right exactly when the bytes counted are `v` and it stops at the cap or at another byte (R7). -/
theorem countRun_eq_iff {v : Byte} {cap n : Nat} {s : List Byte} :
    countRun v cap s = n ↔ n ≤ cap ∧ (∀ k, k < n → s[k]? = some v) ∧ (n = cap ∨ s[n]? ≠ some v) := by
  induction cap generalizing s n with
  | zero =>
    simp only [countRun]
    constructor
    · rintro rfl
      simp
    · rintro ⟨h, -⟩
      omega
  | succ cap ih =>
    cases s with
    | nil =>
      simp only [countRun]
      constructor
      · rintro rfl
        simp
      · rintro ⟨-, h, -⟩
        cases n with
        | zero => rfl
        | succ n => simpa using h 0 (by omega)
    | cons b s =>
      by_cases hb : b = v
      · subst hb
        cases n with
        | zero => simp [countRun]
        | succ n =>
          simp only [countRun, if_true, Nat.add_right_cancel_iff, ih, Nat.add_le_add_iff_right,
            List.getElem?_cons_succ]
          refine and_congr_right fun _ => and_congr_left fun _ => ?_
          constructor
          · intro h k hk
            cases k with
            | zero => simp
            | succ k => simpa using h k (by omega)
          · intro h k hk
            simpa using h (k + 1) (by omega)
      · simp only [countRun, hb, if_false]
        constructor
        · rintro rfl
          simp [hb]
        · rintro ⟨-, h, -⟩
          cases n with
          | zero => rfl
          | succ n => exact absurd (by simpa using h 0 (by omega)) hb

theorem countRun_spec (v : Byte) (cap : Nat) (s : List Byte) :
    (∀ k, k < countRun v cap s → s[k]? = some v) ∧
      (countRun v cap s = cap ∨ s[countRun v cap s]? ≠ some v) :=
  (countRun_eq_iff.1 rfl).2

/-- The counted bytes, and what follows them. -/
theorem eq_replicate_append_drop_countRun (v : Byte) (cap : Nat) (s : List Byte) :
    s = List.replicate (countRun v cap s) v ++ s.drop (countRun v cap s) := by
  induction cap generalizing s with
  | zero => simp [countRun]
  | succ cap ih =>
    cases s with
    | nil => simp [countRun]
    | cons b s =>
      by_cases hb : b = v
      · subst hb
        simpa [countRun, List.replicate_succ] using ih s
      · simp [countRun, hb]

/-! ## The look-ahead -/

/-- The raw bytes a production stands for: with an E.FRUN its trigger too (R109). -/
def LookAhead.raw : LookAhead → List Byte
  | .literal b => [b]
  | .zrun z => List.replicate z Config.fillZ
  | .frun f => Config.fillZ :: List.replicate f Config.fillF

@[simp] theorem LookAhead.raw_length (la : LookAhead) : la.raw.length = la.width := by
  cases la <;> simp [LookAhead.raw, LookAhead.width, Nat.add_comm]

theorem classify_literal_iff {b : List Byte} {i : Nat} {x : Byte} :
    classify b i = some (.literal x) ↔ b[i]? = some x ∧ x ≠ Config.marker := by
  unfold classify
  cases h : b[i]? with
  | none => simp
  | some y =>
    dsimp only
    split
    · rename_i hy
      simp only [Option.some.injEq, LookAhead.literal.injEq]
      exact ⟨fun e => ⟨e, e ▸ hy⟩, fun e => e.1⟩
    · rename_i hy
      have hy : y = Config.marker := by simpa using hy
      subst hy
      split <;> simp +contextual [eq_comm]

theorem classify_zrun_iff {b : List Byte} {i z : Nat} :
    classify b i = some (.zrun z) ↔
      b[i]? = some Config.marker ∧ z = zrun b i ∧ ¬ (z = 1 ∧ b[i + 1]? = some Config.fillF) := by
  unfold classify
  cases h : b[i]? with
  | none => simp
  | some y =>
    dsimp only
    split
    · rename_i hy
      simp [hy]
    · rename_i hy
      have hy : y = Config.marker := by simpa using hy
      split
      · rename_i hc
        simp only [Option.some.injEq, reduceCtorEq, hy, true_and, false_iff]
        rintro ⟨rfl, hn⟩
        exact hn hc
      · rename_i hc
        simp only [Option.some.injEq, LookAhead.zrun.injEq, hy, true_and]
        constructor
        · rintro rfl
          exact ⟨rfl, hc⟩
        · rintro ⟨rfl, -⟩
          rfl

theorem classify_frun_iff {b : List Byte} {i f : Nat} :
    classify b i = some (.frun f) ↔
      b[i]? = some Config.marker ∧ b[i + 1]? = some Config.fillF ∧ f = frun b (i + 1) := by
  unfold classify
  cases h : b[i]? with
  | none => simp
  | some y =>
    dsimp only
    split
    · rename_i hy
      simp [hy]
    · rename_i hy
      have hy : y = Config.marker := by simpa using hy
      subst hy
      by_cases hF : b[i + 1]? = some Config.fillF
      · have hz : zrun b i = 1 := by
          refine countRun_eq_iff.2 ⟨by decide, fun k hk => ?_, .inr ?_⟩
          · obtain rfl : k = 0 := by omega
            simpa [Config.marker, Config.fillZ] using h
          · simp [hF, Config.fillF, Config.fillZ]
        simp [hF, hz, eq_comm]
      · simp [hF]

/-- The detector answers exactly below the end of the input. -/
theorem classify_eq_none_iff {b : List Byte} {i : Nat} : classify b i = none ↔ b.length ≤ i := by
  unfold classify
  cases h : b[i]? with
  | none => simpa using h
  | some y =>
    have : i < b.length := by
      by_contra hn
      rw [List.getElem?_eq_none (by omega)] at h
      simp at h
    dsimp only
    split
    · simp
      omega
    · split <;> simp <;> omega

theorem zrun_le (b : List Byte) (i : Nat) : zrun b i ≤ 128 := countRun_le_cap _ _ _

theorem frun_le (b : List Byte) (i : Nat) : frun b i ≤ 32 := countRun_le_cap _ _ _

theorem zrun_pos {b : List Byte} {i : Nat} (h : b[i]? = some Config.marker) : 1 ≤ zrun b i := by
  by_contra hn
  have h0 : zrun b i = 0 := by omega
  have := (countRun_eq_iff.1 h0).2.2
  simp [h, Config.zcap, Config.marker, Config.fillZ] at this

theorem frun_pos {b : List Byte} {i : Nat} (h : b[i]? = some Config.fillF) : 1 ≤ frun b i := by
  by_contra hn
  have h0 : frun b i = 0 := by omega
  have := (countRun_eq_iff.1 h0).2.2
  simp [h, Config.fcap] at this

/-- What the detector finds is the raw bytes of the production, in front of the rest (R33, R70). -/
theorem classify_raw {b : List Byte} {i : Nat} {la : LookAhead} (h : classify b i = some la) :
    b.drop i = la.raw ++ b.drop (i + la.width) := by
  cases la with
  | literal x =>
    obtain ⟨hx, -⟩ := classify_literal_iff.1 h
    obtain ⟨hi, hxi⟩ := List.getElem?_eq_some_iff.1 hx
    rw [List.drop_eq_getElem_cons hi, hxi]
    rfl
  | zrun z =>
    obtain ⟨-, rfl, -⟩ := classify_zrun_iff.1 h
    rw [LookAhead.width, ← List.drop_drop]
    exact eq_replicate_append_drop_countRun _ _ _
  | frun f =>
    obtain ⟨hx, -, rfl⟩ := classify_frun_iff.1 h
    obtain ⟨hi, hxi⟩ := List.getElem?_eq_some_iff.1 hx
    rw [List.drop_eq_getElem_cons hi, hxi, LookAhead.width, ← Nat.add_assoc, ← List.drop_drop (j := i + 1)]
    exact congrArg (Config.marker :: ·) (eq_replicate_append_drop_countRun Config.fillF Config.fcap (b.drop (i + 1)))

/-- Every production consumes 1 to 128 bytes (R13, R69). -/
theorem classify_width {b : List Byte} {i : Nat} {la : LookAhead} (h : classify b i = some la) :
    1 ≤ la.width ∧ la.width ≤ 128 := by
  cases la with
  | literal x => simp [LookAhead.width]
  | zrun z =>
    obtain ⟨h0, rfl, -⟩ := classify_zrun_iff.1 h
    exact ⟨zrun_pos h0, zrun_le _ _⟩
  | frun f =>
    obtain ⟨-, h1, rfl⟩ := classify_frun_iff.1 h
    have := frun_le b (i + 1)
    simp only [LookAhead.width]
    omega

/-- No production moves the cursor beyond the input (R70). -/
theorem classify_bound {b : List Byte} {i : Nat} {la : LookAhead} (h : classify b i = some la) :
    i + la.width ≤ b.length := by
  have hl := congrArg List.length (classify_raw h)
  have hi : i < b.length := by
    by_contra hn
    rw [classify_eq_none_iff.2 (by omega)] at h
    cases h
  simp only [List.length_append, LookAhead.raw_length, List.length_drop] at hl
  omega

/-- The detector looks at the input from the cursor on, and nowhere else. -/
theorem classify_drop (b : List Byte) (i j : Nat) : classify (b.drop i) j = classify b (i + j) := by
  simp only [classify, zrun, frun, List.getElem?_drop, List.drop_drop, Nat.add_assoc]

/-- Cutting the input at or after the end of a production does not change the production (R26 (b)). -/
theorem classify_take {b : List Byte} {i j : Nat} {la : LookAhead} (h : classify b i = some la)
    (hj : i + la.width ≤ j) : classify (b.take j) i = some la := by
  have hget : ∀ k, k < j → (b.take j)[k]? = b[k]? := fun k hk => List.getElem?_take_of_lt hk
  have hnone : ∀ k, j ≤ k → (b.take j)[k]? = none := fun k hk => by
    rw [List.getElem?_eq_none]
    simp
    omega
  have hw := classify_width h
  cases la with
  | literal x =>
    rw [classify_literal_iff] at h ⊢
    rwa [hget i (by omega)]
  | zrun z =>
    rw [classify_zrun_iff] at h ⊢
    obtain ⟨h0, hz, hn⟩ := h
    simp only [LookAhead.width] at hj hw
    refine ⟨by rwa [hget i (by omega)], ?_, ?_⟩
    · obtain ⟨hcap, hall, hstop⟩ := countRun_eq_iff.1 hz.symm
      symm
      refine countRun_eq_iff.2 ⟨hcap, fun k hk => ?_, ?_⟩
      · have := hall k hk
        rw [List.getElem?_drop] at this ⊢
        rwa [hget _ (by omega)]
      · refine hstop.imp_right fun hs => ?_
        rw [List.getElem?_drop] at hs ⊢
        by_cases hk : i + z < j
        · rwa [hget _ hk]
        · rw [hnone _ (by omega)]
          simp
    · rintro ⟨rfl, hF⟩
      by_cases hk : i + 1 < j
      · exact hn ⟨rfl, by rwa [hget _ hk] at hF⟩
      · rw [hnone _ (by omega)] at hF
        cases hF
  | frun f =>
    rw [classify_frun_iff] at h ⊢
    obtain ⟨h0, h1, hf⟩ := h
    have hpos := frun_pos h1
    simp only [LookAhead.width] at hj hw
    refine ⟨by rwa [hget i (by omega)], by rwa [hget _ (by omega)], ?_⟩
    obtain ⟨hcap, hall, hstop⟩ := countRun_eq_iff.1 hf.symm
    symm
    refine countRun_eq_iff.2 ⟨hcap, fun k hk => ?_, ?_⟩
    · have := hall k hk
      rw [List.getElem?_drop] at this ⊢
      rwa [hget _ (by omega)]
    · refine hstop.imp_right fun hs => ?_
      rw [List.getElem?_drop] at hs ⊢
      by_cases hk : i + 1 + f < j
      · rwa [hget _ hk]
      · rw [hnone _ (by omega)]
        simp

/-! ## The header negation -/

theorem neg4_eq_mapIdx (s : List Byte) :
    neg4 s = s.mapIdx fun k b => if k < 4 then b ^^^ 0xFF else b := by
  refine List.ext_getElem? fun k => ?_
  simp only [neg4, Config.hdr, Config.negMask, List.getElem?_mapIdx, List.getElem?_append, List.length_map, List.length_take,
    List.getElem?_map, List.getElem?_drop]
  by_cases h : k < min 4 s.length
  · have h4 : k < 4 := by omega
    simp [h, h4]
  · by_cases h4 : k < 4
    · have hs : s.length ≤ k := by omega
      rw [if_neg h, List.getElem?_eq_none (by omega), List.getElem?_eq_none hs]
      rfl
    · simp only [if_neg h, if_neg h4]
      by_cases hl : 4 ≤ s.length
      · have : 4 + (k - min 4 s.length) = k := by omega
        rw [this]
        simp
      · rw [List.getElem?_eq_none (by omega), List.getElem?_eq_none (by omega)]
        rfl

@[simp] theorem neg4_length (s : List Byte) : (neg4 s).length = s.length := by
  simp [neg4_eq_mapIdx]

@[simp] theorem neg4_nil : neg4 [] = [] := rfl

theorem neg4_getElem? (s : List Byte) (k : Nat) :
    (neg4 s)[k]? = s[k]?.map fun b => if k < 4 then b ^^^ 0xFF else b := by
  simp [neg4_eq_mapIdx]

end Sys2Proof.Machine
end

