-- ==== Sys2Proof/Laws/State.lean ====
section
/-! SUPPORT. One lemma per field per update, so that no later proof unfolds a record update. -/

namespace Sys2Proof.Machine

@[simp] theorem State.setEnc_enc (s : State) (e : Enc) : (s.setEnc e).enc = e := rfl
@[simp] theorem State.setEnc_dec (s : State) (e : Enc) : (s.setEnc e).dec = s.dec := rfl
@[simp] theorem State.setEnc_agenda (s : State) (e : Enc) : (s.setEnc e).agenda = s.agenda := rfl
@[simp] theorem State.setDec_enc (s : State) (d : Dec) : (s.setDec d).enc = s.enc := rfl
@[simp] theorem State.setDec_dec (s : State) (d : Dec) : (s.setDec d).dec = d := rfl
@[simp] theorem State.setDec_agenda (s : State) (d : Dec) : (s.setDec d).agenda = s.agenda := rfl

@[simp] theorem State.eng_enc (s : State) : s.eng .enc = s.enc.eng := rfl
@[simp] theorem State.eng_dec (s : State) : s.eng .dec = s.dec.eng := rfl
@[simp] theorem State.busy_enc (s : State) : s.busy .enc = s.enc.busy := rfl
@[simp] theorem State.busy_dec (s : State) : s.busy .dec = s.dec.busy := rfl
@[simp] theorem State.err_enc (s : State) : s.err .enc = false := rfl
@[simp] theorem State.err_dec (s : State) : s.err .dec = s.dec.err := rfl
@[simp] theorem State.cause_enc (s : State) : s.cause .enc = 0 := rfl
@[simp] theorem State.cause_dec (s : State) : s.cause .dec = s.dec.cause := rfl
@[simp] theorem State.done_enc (s : State) : s.done .enc = decide (s.enc.phase = .done) := rfl
@[simp] theorem State.done_dec (s : State) : s.done .dec = decide (s.dec.phase = .done) := rfl

@[simp] theorem State.setEng_eng (s : State) (i : EngineId) (e : Engine) : (s.setEng i e).eng i = e := by
  cases i <;> rfl

@[simp] theorem State.setEng_agenda (s : State) (i : EngineId) (e : Engine) : (s.setEng i e).agenda = s.agenda := by
  cases i <;> rfl

@[simp] theorem State.setEng_busy (s : State) (i j : EngineId) (e : Engine) : (s.setEng i e).busy j = s.busy j := by
  cases i <;> cases j <;> rfl

@[simp] theorem Engine.emit_inBuf (e : Engine) (bs : List Byte) : (e.emit bs).inBuf = e.inBuf := rfl
@[simp] theorem Engine.emit_inLen (e : Engine) (bs : List Byte) : (e.emit bs).inLen = e.inLen := rfl
@[simp] theorem Engine.emit_outBuf (e : Engine) (bs : List Byte) :
    (e.emit bs).outBuf = e.outBuf.writeSeq e.outLen bs := rfl
@[simp] theorem Engine.emit_outLen (e : Engine) (bs : List Byte) : (e.emit bs).outLen = e.outLen + bs.length := rfl
@[simp] theorem Engine.emit_cur (e : Engine) (bs : List Byte) : (e.emit bs).cur = e.cur := rfl
@[simp] theorem Engine.emit_epoch (e : Engine) (bs : List Byte) : (e.emit bs).epoch = e.epoch := rfl

@[simp] theorem Engine.advance_inBuf (e : Engine) (n : Nat) : (e.advance n).inBuf = e.inBuf := rfl
@[simp] theorem Engine.advance_inLen (e : Engine) (n : Nat) : (e.advance n).inLen = e.inLen := rfl
@[simp] theorem Engine.advance_outBuf (e : Engine) (n : Nat) : (e.advance n).outBuf = e.outBuf := rfl
@[simp] theorem Engine.advance_outLen (e : Engine) (n : Nat) : (e.advance n).outLen = e.outLen := rfl
@[simp] theorem Engine.advance_cur (e : Engine) (n : Nat) : (e.advance n).cur = e.cur + n := rfl
@[simp] theorem Engine.advance_epoch (e : Engine) (n : Nat) : (e.advance n).epoch = e.epoch := rfl

@[simp] theorem Engine.start_inBuf (e : Engine) : e.start.inBuf = e.inBuf := rfl
@[simp] theorem Engine.start_inLen (e : Engine) : e.start.inLen = e.inLen := rfl
@[simp] theorem Engine.start_outBuf (e : Engine) : e.start.outBuf = e.outBuf := rfl
@[simp] theorem Engine.start_outLen (e : Engine) : e.start.outLen = 0 := rfl
@[simp] theorem Engine.start_cur (e : Engine) : e.start.cur = 0 := rfl
@[simp] theorem Engine.start_epoch (e : Engine) : e.start.epoch = e.epoch := rfl

@[simp] theorem Engine.discardOut_inBuf (e : Engine) : e.discardOut.inBuf = e.inBuf := rfl
@[simp] theorem Engine.discardOut_inLen (e : Engine) : e.discardOut.inLen = e.inLen := rfl
@[simp] theorem Engine.discardOut_outBuf (e : Engine) : e.discardOut.outBuf = e.outBuf := rfl
@[simp] theorem Engine.discardOut_outLen (e : Engine) : e.discardOut.outLen = 0 := rfl
@[simp] theorem Engine.discardOut_cur (e : Engine) : e.discardOut.cur = e.cur := rfl
@[simp] theorem Engine.discardOut_epoch (e : Engine) : e.discardOut.epoch = e.epoch := rfl

@[simp] theorem Engine.writeIn_inBuf (e : Engine) (k : Nat) (b : Byte) :
    (e.writeIn k b).inBuf = e.inBuf.write k b := rfl
@[simp] theorem Engine.writeIn_inLen (e : Engine) (k : Nat) (b : Byte) : (e.writeIn k b).inLen = e.inLen := rfl
@[simp] theorem Engine.writeIn_outBuf (e : Engine) (k : Nat) (b : Byte) : (e.writeIn k b).outBuf = e.outBuf := rfl
@[simp] theorem Engine.writeIn_outLen (e : Engine) (k : Nat) (b : Byte) : (e.writeIn k b).outLen = e.outLen := rfl
@[simp] theorem Engine.writeIn_cur (e : Engine) (k : Nat) (b : Byte) : (e.writeIn k b).cur = e.cur := rfl
@[simp] theorem Engine.writeIn_epoch (e : Engine) (k : Nat) (b : Byte) : (e.writeIn k b).epoch = e.epoch := rfl

@[simp] theorem Engine.writeInLen_inBuf (e : Engine) (n : Nat) : (e.writeInLen n).inBuf = e.inBuf := rfl
@[simp] theorem Engine.writeInLen_inLen (e : Engine) (n : Nat) : (e.writeInLen n).inLen = n := rfl
@[simp] theorem Engine.writeInLen_outBuf (e : Engine) (n : Nat) : (e.writeInLen n).outBuf = e.outBuf := rfl
@[simp] theorem Engine.writeInLen_outLen (e : Engine) (n : Nat) : (e.writeInLen n).outLen = e.outLen := rfl
@[simp] theorem Engine.writeInLen_cur (e : Engine) (n : Nat) : (e.writeInLen n).cur = e.cur := rfl
@[simp] theorem Engine.writeInLen_epoch (e : Engine) (n : Nat) : (e.writeInLen n).epoch = e.epoch := rfl

@[simp] theorem Engine.resetEvent_inBuf (e : Engine) : e.resetEvent.inBuf = [] := rfl
@[simp] theorem Engine.resetEvent_inLen (e : Engine) : e.resetEvent.inLen = 0 := rfl
@[simp] theorem Engine.resetEvent_outBuf (e : Engine) : e.resetEvent.outBuf = [] := rfl
@[simp] theorem Engine.resetEvent_outLen (e : Engine) : e.resetEvent.outLen = 0 := rfl
@[simp] theorem Engine.resetEvent_cur (e : Engine) : e.resetEvent.cur = 0 := rfl
@[simp] theorem Engine.resetEvent_epoch (e : Engine) : e.resetEvent.epoch = e.epoch + 1 := rfl

@[simp] theorem Enc.start_phase (e : Enc) : e.start.phase = .scan := rfl
@[simp] theorem Enc.start_eng (e : Enc) : e.start.eng = e.eng.start := rfl
@[simp] theorem Enc.resetEvent_phase (e : Enc) : e.resetEvent.phase = .idle := rfl
@[simp] theorem Enc.resetEvent_eng (e : Enc) : e.resetEvent.eng = e.eng.resetEvent := rfl

@[simp] theorem Dec.start_phase (d : Dec) : d.start.phase = .pre := rfl
@[simp] theorem Dec.start_eng (d : Dec) : d.start.eng = d.eng.start := rfl
@[simp] theorem Dec.start_work (d : Dec) : d.start.work = d.work := rfl
@[simp] theorem Dec.start_err (d : Dec) : d.start.err = false := rfl
@[simp] theorem Dec.start_cause (d : Dec) : d.start.cause = 0 := rfl
@[simp] theorem Dec.resetEvent_phase (d : Dec) : d.resetEvent.phase = .idle := rfl
@[simp] theorem Dec.resetEvent_eng (d : Dec) : d.resetEvent.eng = d.eng.resetEvent := rfl
@[simp] theorem Dec.resetEvent_work (d : Dec) : d.resetEvent.work = [] := rfl
@[simp] theorem Dec.resetEvent_err (d : Dec) : d.resetEvent.err = false := rfl
@[simp] theorem Dec.resetEvent_cause (d : Dec) : d.resetEvent.cause = 0 := rfl
@[simp] theorem Dec.raiseMalformed_phase (d : Dec) : d.raiseMalformed.phase = .done := rfl
@[simp] theorem Dec.raiseMalformed_eng (d : Dec) : d.raiseMalformed.eng = d.eng.discardOut := rfl
@[simp] theorem Dec.raiseMalformed_work (d : Dec) : d.raiseMalformed.work = d.work := rfl
@[simp] theorem Dec.raiseMalformed_err (d : Dec) : d.raiseMalformed.err = true := rfl
@[simp] theorem Dec.raiseMalformed_cause (d : Dec) : d.raiseMalformed.cause = Config.errCodeMalformed := rfl

/-- BUSY of ENC by its phase (R18). -/
theorem Enc.busy_iff (e : Enc) : e.busy = true ↔ e.phase = .scan ∨ e.phase = .post := by
  unfold Enc.busy
  cases e.phase <;> simp

/-- BUSY of DEC by its phase (R18). -/
theorem Dec.busy_iff (d : Dec) : d.busy = true ↔ d.phase = .pre ∨ d.phase = .scan := by
  unfold Dec.busy
  cases d.phase <;> simp

/-- ENC's STATUS by its phase (R18). -/
theorem State.status_enc (s : State) :
    s.status .enc = match s.enc.phase with | .idle => 0x00 | .scan => 0x01 | .post => 0x01 | .done => 0x02 := by
  unfold State.status State.busy State.done State.err Enc.busy
  cases s.enc.phase <;> simp [statusByte]

/-- DEC's STATUS by its phase and ERR (R18). -/
theorem State.status_dec (s : State) :
    s.status .dec = (match s.dec.phase with | .idle => 0x00 | .pre => 0x01 | .scan => 0x01 | .done => 0x02) |||
      (if s.dec.err then 0x04 else 0x00) := by
  unfold State.status State.busy State.done State.err Dec.busy
  cases s.dec.phase <;> cases s.dec.err <;> simp [statusByte]

/-- STATUS of ENC is a function of its phase. -/
theorem State.status_enc_congr {s t : State} (h : t.enc.phase = s.enc.phase) : t.status .enc = s.status .enc := by
  rw [State.status_enc, State.status_enc, h]

/-- STATUS of DEC is a function of its phase and ERR. -/
theorem State.status_dec_congr {s t : State} (h : t.dec.phase = s.dec.phase) (he : t.dec.err = s.dec.err) :
    t.status .dec = s.status .dec := by
  rw [State.status_dec, State.status_dec, h, he]

end Sys2Proof.Machine
end

