-- ==== Sys2Proof/Laws/Exec.lean ====
section
/-! SUPPORT. What each meaning can do: one inversion lemma per instruction, and the output as a byte sequence. -/

namespace Sys2Proof.Machine

/-! ## Byte sequences of an engine -/

@[simp] theorem Engine.inSeq_length (free : Nat → Nat → Byte) (e : Engine) : (e.inSeq free).length = e.inLen := by
  simp [Engine.inSeq]

@[simp] theorem Enc.inSeq_length (e : Enc) : e.inSeq.length = e.eng.inLen := Engine.inSeq_length _ _

@[simp] theorem Dec.inSeq_length (d : Dec) : d.inSeq.length = d.eng.inLen := Engine.inSeq_length _ _

theorem Engine.inSeq_getElem? (free : Nat → Nat → Byte) (e : Engine) {k : Nat} (h : k < e.inLen) :
    (e.inSeq free)[k]? = some (e.inByte free k) := by
  simp [Engine.inSeq, h]

/-- `IN` as a sequence depends on what the host wrote, on IN_LEN and on the epoch alone. -/
theorem Engine.inSeq_congr {free : Nat → Nat → Byte} {e e' : Engine} (hb : e.inBuf = e'.inBuf)
    (hl : e.inLen = e'.inLen) (hp : e.epoch = e'.epoch) : e.inSeq free = e'.inSeq free := by
  unfold Engine.inSeq
  rw [hl]
  refine List.map_congr_left fun k _ => ?_
  rw [Engine.inByte, Engine.inByte, hb, hp]

/-- `Emit` appends to the output (R34). -/
@[simp] theorem Engine.emit_outSeq? (e : Engine) (bs : List Byte) :
    (e.emit bs).outSeq? = e.outSeq?.map (· ++ bs) :=
  Memory.readSeq?_writeSeq_append _ _ _

@[simp] theorem Engine.advance_outSeq? (e : Engine) (n : Nat) : (e.advance n).outSeq? = e.outSeq? := rfl

@[simp] theorem Engine.start_outSeq? (e : Engine) : e.start.outSeq? = some [] := rfl

@[simp] theorem Engine.discardOut_outSeq? (e : Engine) : e.discardOut.outSeq? = some [] := rfl

/-- The output can be read exactly when all its bytes were written. -/
theorem Engine.outSeq?_isSome_iff (e : Engine) :
    (∃ out, e.outSeq? = some out) ↔ ∀ k, k < e.outLen → e.outBuf.read? k ≠ none := by
  simpa [Engine.outSeq?] using Memory.readSeq?_isSome_iff (m := e.outBuf) (k := 0) (n := e.outLen)

theorem Engine.outSeq?_length {e : Engine} {out : List Byte} (h : e.outSeq? = some out) : out.length = e.outLen :=
  (Memory.readSeq?_eq_some_iff.1 h).1

/-! ## ENC -/

/-- What a scan step of ENC does, and when (R62 to R64). -/
theorem encScan_eq_next_iff {la : LookAhead} {s t : State} :
    encScan la s = .next t ↔
      (s.enc.phase = .scan ∧ classify s.enc.inSeq s.enc.eng.cur = some la) ∧
        t = s.setEnc { s.enc with eng := (s.enc.eng.emit la.emits).advance la.width } := by
  unfold encScan
  split
  · rename_i h
    simp only [Host.Outcome.next.injEq, h, and_self, true_and]
    exact eq_comm
  · rename_i h
    simp [h]

theorem execELit_eq_next_iff {b : Byte} {s t : State} :
    execELit b s = .next t ↔
      (s.enc.phase = .scan ∧ classify s.enc.inSeq s.enc.eng.cur = some (.literal b)) ∧
        t = s.setEnc { s.enc with eng := (s.enc.eng.emit [b]).advance 1 } :=
  encScan_eq_next_iff

theorem execEZrun_eq_next_iff {z : Nat} {s t : State} :
    execEZrun z s = .next t ↔
      (s.enc.phase = .scan ∧ classify s.enc.inSeq s.enc.eng.cur = some (.zrun z)) ∧
        t = s.setEnc { s.enc with eng := (s.enc.eng.emit [Config.marker, zrunControl z]).advance z } :=
  encScan_eq_next_iff

theorem execEFrun_eq_next_iff {f : Nat} {s t : State} :
    execEFrun f s = .next t ↔
      (s.enc.phase = .scan ∧ classify s.enc.inSeq s.enc.eng.cur = some (.frun f)) ∧
        t = s.setEnc { s.enc with eng := (s.enc.eng.emit [Config.marker, frunControl 0 f]).advance (1 + f) } :=
  encScan_eq_next_iff

theorem execEEndscan_eq_next_iff {s t : State} :
    execEEndscan s = .next t ↔
      (s.enc.phase = .scan ∧ s.enc.eng.cur = s.enc.eng.inLen) ∧ t = s.setEnc { s.enc with phase := .post } := by
  unfold execEEndscan
  split
  · rename_i h
    simp only [Host.Outcome.next.injEq, h, and_self, true_and]
    exact eq_comm
  · rename_i h
    simp [h]

/-- What E.NEG does, and when (R66). -/
theorem execENeg_eq_next_iff {s t : State} :
    execENeg s = .next t ↔
      s.enc.phase = .post ∧ ∃ bs, s.enc.eng.outBuf.readSeq? 0 (min Config.hdr s.enc.eng.outLen) = some bs ∧
        t = s.setEnc { s.enc with
          phase := .done
          eng := { s.enc.eng with outBuf := s.enc.eng.outBuf.writeSeq 0 (bs.map (· ^^^ Config.negMask)) } } := by
  unfold execENeg
  split
  · rename_i hp
    split
    · rename_i bs hb
      simp only [Host.Outcome.next.injEq, hp, hb, true_and, Option.some.injEq, exists_eq_left']
      exact eq_comm
    · rename_i hb
      simp [hb]
  · rename_i hp
    simp [hp]

/-! ## DEC -/

theorem Dec.byteAt?_eq_some_iff {d : Dec} {j : Nat} {b : Byte} :
    d.byteAt? j = some b ↔ d.eng.cur + j < d.eng.inLen ∧ d.work.read? (d.eng.cur + j) = some b := by
  unfold Dec.byteAt?
  split <;> simp_all

theorem Dec.literalHere_iff {d : Dec} {b : Byte} :
    d.literalHere b = true ↔
      d.eng.cur < d.eng.inLen ∧ d.work.read? d.eng.cur = some b ∧ b ≠ Config.marker := by
  have h := @Dec.byteAt?_eq_some_iff d 0 b
  simp only [Nat.add_zero] at h
  unfold Dec.literalHere
  cases hb : d.byteAt? 0 with
  | none =>
    rw [hb] at h
    simp only [reduceCtorEq, false_iff, not_and] at h
    simp only [Bool.false_eq_true, false_iff, not_and]
    exact fun h1 h2 => absurd h2 (h h1)
  | some v =>
    rw [hb, Option.some.injEq] at h
    simp only [Bool.and_eq_true, beq_iff_eq, bne_iff_ne, ne_eq, h, and_assoc]

theorem Dec.descriptorHere_iff {d : Dec} {p : Byte → Bool} :
    d.descriptorHere p = true ↔
      d.eng.cur + 1 < d.eng.inLen ∧ d.work.read? d.eng.cur = some Config.marker ∧
        ∃ c, d.work.read? (d.eng.cur + 1) = some c ∧ p c = true := by
  have h0 := @Dec.byteAt?_eq_some_iff d 0
  have h1 := @Dec.byteAt?_eq_some_iff d 1
  simp only [Nat.add_zero] at h0
  unfold Dec.descriptorHere
  constructor
  · intro h
    split at h
    · rename_i m c hm hc
      simp only [Bool.and_eq_true, beq_iff_eq] at h
      obtain ⟨rfl, hp⟩ := h
      exact ⟨(h1.1 hc).1, (h0.1 hm).2, c, (h1.1 hc).2, hp⟩
    · simp at h
  · rintro ⟨hl, hm, c, hc, hp⟩
    rw [h0.2 ⟨by omega, hm⟩, h1.2 ⟨hl, hc⟩]
    simp [hp]

theorem decScan_eq_next_iff {here : Bool} {bs : List Byte} {n : Nat} {s t : State} :
    decScan here bs n s = .next t ↔
      (s.dec.phase = .scan ∧ here = true) ∧
        t = s.setDec { s.dec with eng := (s.dec.eng.emit bs).advance n } := by
  unfold decScan
  split
  · rename_i h
    simp only [Host.Outcome.next.injEq, h, and_self, true_and]
    exact eq_comm
  · rename_i h
    simp [h]

theorem execLit_eq_next_iff {b : Byte} {s t : State} :
    execLit b s = .next t ↔
      (s.dec.phase = .scan ∧ s.dec.literalHere b = true) ∧
        t = s.setDec { s.dec with eng := (s.dec.eng.emit [b]).advance 1 } :=
  decScan_eq_next_iff

theorem execZrun_eq_next_iff {n : Nat} {s t : State} :
    execZrun n s = .next t ↔
      (s.dec.phase = .scan ∧
        s.dec.descriptorHere (fun c => !isFrunControl c && zrunLength c == n) = true) ∧
        t = s.setDec { s.dec with eng := (s.dec.eng.emit (List.replicate n Config.fillZ)).advance 2 } :=
  decScan_eq_next_iff

theorem execFrun_eq_next_iff {x : BitVec 2} {n : Nat} {s t : State} :
    execFrun x n s = .next t ↔
      (s.dec.phase = .scan ∧
        s.dec.descriptorHere (fun c => isFrunControl c && frunUnused c == x && frunLength c == n) = true) ∧
        t = s.setDec { s.dec with eng := (s.dec.eng.emit (List.replicate n Config.fillF)).advance 2 } :=
  decScan_eq_next_iff

theorem execTrunc_eq_next_iff {s t : State} :
    execTrunc s = .next t ↔
      (s.dec.phase = .scan ∧ s.dec.byteAt? 0 = some Config.marker ∧ s.dec.eng.cur + 1 = s.dec.eng.inLen) ∧
        t = s.setDec s.dec.raiseMalformed := by
  unfold execTrunc
  split
  · rename_i h
    simp only [Host.Outcome.next.injEq, h, and_self, true_and]
    exact eq_comm
  · rename_i h
    simp [h]

theorem execDUnneg_eq_next_iff {s t : State} :
    execDUnneg s = .next t ↔
      s.dec.phase = .pre ∧
        t = s.setDec { s.dec with phase := .scan, work := s.dec.work.writeSeq 0 (neg4 s.dec.inSeq) } := by
  unfold execDUnneg
  split
  · rename_i h
    simp only [Host.Outcome.next.injEq, h, true_and]
    exact eq_comm
  · rename_i h
    simp [h]

theorem execDEnd_eq_next_iff {s t : State} :
    execDEnd s = .next t ↔
      (s.dec.phase = .scan ∧ s.dec.eng.cur = s.dec.eng.inLen) ∧ t = s.setDec { s.dec with phase := .done } := by
  unfold execDEnd
  split
  · rename_i h
    simp only [Host.Outcome.next.injEq, h, and_self, true_and]
    exact eq_comm
  · rename_i h
    simp [h]

/-! ## Commands -/

theorem execEncStart_eq_next_iff {s t : State} :
    execEncStart s = .next t ↔ s.enc.busy = false ∧ t = s.setEnc s.enc.start := by
  unfold execEncStart
  split
  · rename_i h
    simp [h]
  · rename_i h
    simp [h, eq_comm]

theorem execDecStart_eq_next_iff {s t : State} :
    execDecStart s = .next t ↔ s.dec.busy = false ∧ t = s.setDec s.dec.start := by
  unfold execDecStart
  split
  · rename_i h
    simp [h]
  · rename_i h
    simp [h, eq_comm]

end Sys2Proof.Machine
end

