-- ==== Sys2Proof/Laws/Functions.lean ====
section
/-! SUPPORT. The recursion equations of the document's functions (R68, R84), and their inductions. -/

namespace Sys2Proof.Machine

/-! ## The encoder's productions -/

/-- Fuel beyond the length changes nothing (R69: every production consumes a byte). -/
theorem productionsFuel_eq {n m : Nat} {s : List Byte} (hn : s.length ≤ n) (hm : s.length ≤ m) :
    productionsFuel n s = productionsFuel m s := by
  induction n generalizing m s with
  | zero =>
    have hs : s = [] := List.eq_nil_of_length_eq_zero (by omega)
    subst hs
    cases m with
    | zero => rfl
    | succ m => simp [productionsFuel, classify]
  | succ n ih =>
    cases m with
    | zero =>
      have hs : s = [] := List.eq_nil_of_length_eq_zero (by omega)
      subst hs
      simp [productionsFuel, classify]
    | succ m =>
      unfold productionsFuel
      cases h : classify s 0 with
      | none => rfl
      | some la =>
        have hw := (classify_width h).1
        have hl : (s.drop la.width).length = s.length - la.width := List.length_drop
        exact congrArg (la :: ·) (ih (by omega) (by omega))

@[simp] theorem productions_nil : productions [] = [] := rfl

/-- The recursion of R68 and R60: the production at the start, then the rest. -/
theorem productions_of_classify {s : List Byte} {la : LookAhead} (h : classify s 0 = some la) :
    productions s = la :: productions (s.drop la.width) := by
  have hw := (classify_width h).1
  have hb := classify_bound h
  cases hs : s.length with
  | zero => omega
  | succ n =>
    have hl : (s.drop la.width).length = s.length - la.width := List.length_drop
    simp only [productions, hs, productionsFuel, h]
    rw [productionsFuel_eq (m := (s.drop la.width).length) (by omega) (by omega)]

/-- Induction over a raw byte sequence by the encoder's productions. -/
theorem productions_induction {P : List Byte → Prop} (nil : P [])
    (step : ∀ s la, classify s 0 = some la → P (s.drop la.width) → P s) (s : List Byte) : P s := by
  induction hn : s.length using Nat.strong_induction_on generalizing s with
  | _ n ih =>
    cases h : classify s 0 with
    | none =>
      have : s = [] := List.eq_nil_of_length_eq_zero (by have := classify_eq_none_iff.1 h; omega)
      exact this ▸ nil
    | some la =>
      have hw := (classify_width h).1
      have hb := classify_bound h
      refine step s la h (ih _ ?_ _ rfl)
      simp only [List.length_drop]
      omega

/-- Every production of an input comes from the detector, so its count is in the range of R61. -/
theorem production_classified {s : List Byte} {la : LookAhead} (h : la ∈ productions s) :
    ∃ i, classify s i = some la := by
  induction s using productions_induction with
  | nil => simp at h
  | step s la' hc ih =>
    rw [productions_of_classify hc, List.mem_cons] at h
    rcases h with rfl | h
    · exact ⟨0, hc⟩
    · obtain ⟨i, hi⟩ := ih h
      exact ⟨la'.width + i, by rwa [classify_drop] at hi⟩

/-- The productions' raw bytes are the input (R109). -/
theorem productions_raw (s : List Byte) : (productions s).flatMap LookAhead.raw = s := by
  induction s using productions_induction with
  | nil => rfl
  | step s la hc ih =>
    rw [productions_of_classify hc, List.flatMap_cons, ih]
    simpa using (classify_raw hc).symm

@[simp] theorem elog_nil : elog [] = [] := rfl

/-- `Elog` by its recursion (R68). -/
theorem elog_of_classify {s : List Byte} {la : LookAhead} (h : classify s 0 = some la) :
    elog s = la.emits ++ elog (s.drop la.width) := by
  simp [elog, productions_of_classify h]

/-- `Elog` from a cursor on: what the production at the cursor emits, then the rest. -/
theorem elog_drop_of_classify {b : List Byte} {i : Nat} {la : LookAhead} (h : classify b i = some la) :
    elog (b.drop i) = la.emits ++ elog (b.drop (i + la.width)) := by
  have h0 : classify (b.drop i) 0 = some la := by rwa [classify_drop]
  rw [elog_of_classify h0, List.drop_drop]

/-! ## The decoder -/

@[simp] theorem dlogWith_nil (f : Byte) : dlogWith f [] = .ok [] := rfl

@[simp] theorem dlogWith_lone_marker (f : Byte) : dlogWith f [Config.marker] = .error .malformedStream := by
  simp [dlogWith]

theorem dlogWith_literal (f : Byte) {b : Byte} (h : b ≠ Config.marker) (rest : List Byte) :
    dlogWith f (b :: rest) = (dlogWith f rest).map (b :: ·) := by
  cases rest with
  | nil => simp [dlogWith, h, Except.map]
  | cons c rest =>
    simp only [dlogWith, h, if_false]
    cases dlogWith f (c :: rest) <;> rfl

theorem dlogWith_zrun (f : Byte) {c : Byte} (h : isFrunControl c = false) (rest : List Byte) :
    dlogWith f (Config.marker :: c :: rest) =
      (dlogWith f rest).map (List.replicate (zrunLength c) Config.fillZ ++ ·) := by
  simp only [dlogWith, h, if_true]
  cases dlogWith f rest <;> rfl

theorem dlogWith_frun (f : Byte) {c : Byte} (h : isFrunControl c = true) (rest : List Byte) :
    dlogWith f (Config.marker :: c :: rest) =
      (dlogWith f rest).map (List.replicate ((c &&& f).toNat + 1) Config.fillF ++ ·) := by
  simp only [dlogWith, h, if_true]
  cases dlogWith f rest <;> rfl

end Sys2Proof.Machine
end

