-- ==== Sys2Proof/Laws/PerInstr.lean ====
section
/-! SUPPORT. What is said of every instruction as syntax: the shape of its encoding (R46, R47, R58, R20). -/

namespace Sys2Proof.Laws.EncodingShape

/-- An encoding has one or two bytes; in the stream it is a segment of DEC's, and never a command; in a CTRL write it is
the command of that engine. -/
def Statement (i : Instr) : Prop :=
  ∀ p bs, encode i = some (p, bs) →
    (bs.length = 1 ∨ bs.length = 2) ∧
      match p with
      | .stream => i.engine = .dec ∧ i.isCommand = false
      | .ctrl e => i.engine = e ∧ i.isCommand = true

theorem lit (b : Byte) : Statement (.lit b) := by rintro p bs ⟨⟩; simp [Instr.engine, Instr.isCommand]
theorem zrun (n : Nat) : Statement (.zrun n) := by rintro p bs ⟨⟩; simp [Instr.engine, Instr.isCommand]
theorem frun (x : BitVec 2) (n : Nat) : Statement (.frun x n) := by rintro p bs ⟨⟩; simp [Instr.engine, Instr.isCommand]
theorem trunc : Statement .trunc := by rintro p bs ⟨⟩; simp [Instr.engine, Instr.isCommand]
theorem eLit (b : Byte) : Statement (.eLit b) := by rintro p bs ⟨⟩
theorem eZrun (z : Nat) : Statement (.eZrun z) := by rintro p bs ⟨⟩
theorem eFrun (f : Nat) : Statement (.eFrun f) := by rintro p bs ⟨⟩
theorem eEndscan : Statement .eEndscan := by rintro p bs ⟨⟩
theorem eNeg : Statement .eNeg := by rintro p bs ⟨⟩
theorem dUnneg : Statement .dUnneg := by rintro p bs ⟨⟩
theorem dEnd : Statement .dEnd := by rintro p bs ⟨⟩
theorem encStart : Statement .encStart := by rintro p bs ⟨⟩; simp [Instr.engine, Instr.isCommand]
theorem decStart : Statement .decStart := by rintro p bs ⟨⟩; simp [Instr.engine, Instr.isCommand]

end Sys2Proof.Laws.EncodingShape
end

