-- ==== Sys2Proof/Laws/Scan.lean ====
section
/-! SUPPORT. A scan of a raw byte sequence at its step boundaries (R26 (b)), and what keeps an engine's buffers sound. -/

namespace Sys2Proof.Machine

/-- A step boundary is not beyond the end (R26 (a)). -/
theorem Boundary.le_length {b : List Byte} {i : Nat} (h : Boundary b i) : i ≤ b.length := by
  cases h with
  | start => omega
  | step _ hc => exact classify_bound hc

/-- What was emitted before a boundary does not depend on the bytes after it (R26 (b)). -/
theorem elog_take_of_boundary {b : List Byte} {i j : Nat} (h : Boundary b i) (hj : i ≤ j) :
    elog (b.take j) = elog (b.take i) ++ elog ((b.take j).drop i) := by
  induction h generalizing j with
  | start => simp
  | @step i la _ hc ih =>
    have hcut : ∀ k, i + la.width ≤ k →
        elog (b.take k) = elog (b.take i) ++ (la.emits ++ elog ((b.take k).drop (i + la.width))) := by
      intro k hk
      rw [ih (by omega), elog_drop_of_classify (classify_take hc hk)]
    have hend : (b.take (i + la.width)).drop (i + la.width) = [] :=
      List.drop_eq_nil_of_le (by simp)
    rw [hcut j hj, hcut (i + la.width) (Nat.le_refl _), hend, elog_nil, List.append_nil, List.append_assoc]

/-- One production further, its bytes are appended (R62 to R64). -/
theorem elog_take_step {b : List Byte} {i : Nat} {la : LookAhead} (h : Boundary b i)
    (hc : classify b i = some la) : elog (b.take (i + la.width)) = elog (b.take i) ++ la.emits := by
  have hend : (b.take (i + la.width)).drop (i + la.width) = [] :=
    List.drop_eq_nil_of_le (by simp)
  rw [elog_take_of_boundary h (Nat.le_add_right i la.width),
    elog_drop_of_classify (classify_take hc (Nat.le_refl _)), hend, elog_nil, List.append_nil]

/-- Appending keeps the buffers canonical and written (R34). -/
theorem Engine.Inv.emit_advance {e : Engine} (h : e.Inv) (bs : List Byte) (n : Nat) : ((e.emit bs).advance n).Inv := by
  refine ⟨h.inWf, Memory.wf_writeSeq h.outWf _ _, fun k hk => ?_⟩
  simp only [Engine.advance_outLen, Engine.emit_outLen] at hk
  simp only [Engine.advance_outBuf, Engine.emit_outBuf, Memory.read?_writeSeq]
  split
  · rename_i hin
    simp only [ne_eq, List.getElem?_eq_none_iff]
    omega
  · exact h.outWritten k (by omega)

/-- A reset event leaves sound buffers (R135). -/
theorem Engine.inv_resetEvent (e : Engine) : e.resetEvent.Inv := by
  constructor <;> simp [Memory.wf]

end Sys2Proof.Machine
end

