-- ==== Sys2Proof/Laws/Step.lean ====
section
/-! SUPPORT. Which move a step makes, and which step an engine selects. -/

namespace Sys2Proof.Machine

/-! ## Turns -/

theorem step_of_agenda {s : State} {i : Input} {rest : List Input} (h : s.agenda = i :: rest) :
    step s = runInput i { s with agenda := rest } := by
  simp [step, State.turn, h]

theorem step_of_no_agenda {s : State} (h : s.agenda = []) : step s = engineStep s.defaultEngine s := by
  simp [step, State.turn, h, runInput]

@[simp] theorem State.turn_enc (s : State) : s.turn.2.enc = s.enc := by
  unfold State.turn
  split <;> rfl

@[simp] theorem State.turn_dec (s : State) : s.turn.2.dec = s.dec := by
  unfold State.turn
  split <;> rfl

/-- A write to ENC's CTRL (R20). -/
theorem hostMove_writeCtrl_enc (v : Byte) (s : State) :
    hostMove (.writeCtrl .enc v) s = if v.getLsbD 0 then execEncStart s else .next s := by
  by_cases h : v.getLsbD 0 = true
  · simp only [hostMove, decodeCtrl, if_pos h]
    rfl
  · simp only [hostMove, decodeCtrl, if_neg h]

/-- A write to DEC's CTRL (R20). -/
theorem hostMove_writeCtrl_dec (v : Byte) (s : State) :
    hostMove (.writeCtrl .dec v) s = if v.getLsbD 0 then execDecStart s else .next s := by
  by_cases h : v.getLsbD 0 = true
  · simp only [hostMove, decodeCtrl, if_pos h]
    rfl
  · simp only [hostMove, decodeCtrl, if_neg h]

/-- What a write to CTRL can do: nothing, or that engine's START. -/
theorem hostMove_writeCtrl_cases {e : EngineId} {v : Byte} {s t : State} (h : hostMove (.writeCtrl e v) s = .next t) :
    t = s ∨ (v.getLsbD 0 = true ∧ exec (match e with | .enc => .encStart | .dec => .decStart) s = .next t) := by
  cases e
  · rw [hostMove_writeCtrl_enc] at h
    split at h
    · exact .inr ⟨by assumption, h⟩
    · cases h
      exact .inl rfl
  · rw [hostMove_writeCtrl_dec] at h
    split at h
    · exact .inr ⟨by assumption, h⟩
    · cases h
      exact .inl rfl

/-! ## ENC's selection (R69) -/

theorem Enc.select_scan_end {e : Enc} (hp : e.phase = .scan) (hc : e.eng.cur = e.eng.inLen) :
    e.select = .run .eEndscan := by
  simp [Enc.select, hp, hc]

theorem Enc.select_scan {e : Enc} {la : LookAhead} (hp : e.phase = .scan)
    (hc : classify e.inSeq e.eng.cur = some la) : e.select = .run la.instr := by
  have hne : e.eng.cur ≠ e.eng.inLen := by
    intro h
    rw [classify_eq_none_iff.2 (by simp [h])] at hc
    cases hc
  simp [Enc.select, hp, hne, hc]

theorem Enc.select_post {e : Enc} (hp : e.phase = .post) : e.select = .run .eNeg := by
  simp [Enc.select, hp]

theorem Enc.select_waiting {e : Enc} (h : e.busy = false) : e.select = .waiting := by
  unfold Enc.busy at h
  unfold Enc.select
  cases hp : e.phase <;> simp_all

theorem exec_instr_of_lookAhead (la : LookAhead) (s : State) : exec la.instr s = encScan la s := by
  cases la <;> rfl

/-! ## DEC's selection (R85, R125) -/

theorem Dec.select_scan_end {d : Dec} (hp : d.phase = .scan) (hc : d.eng.cur = d.eng.inLen) :
    d.select = .run .dEnd := by
  simp [Dec.select, hp, hc]

theorem Dec.select_pre {d : Dec} (hp : d.phase = .pre) : d.select = .run .dUnneg := by
  simp [Dec.select, hp]

theorem Dec.select_waiting {d : Dec} (h : d.busy = false) : d.select = .waiting := by
  unfold Dec.busy at h
  unfold Dec.select
  cases hp : d.phase <;> simp_all

theorem Dec.select_scan {d : Dec} {bs rest : List Byte} {i : Instr} (hp : d.phase = .scan)
    (hc : d.eng.cur ≠ d.eng.inLen) (hw : d.window? = some bs) (hd : decode bs = .ok (i, rest)) :
    d.select = .run i := by
  simp [Dec.select, hp, hc, hw, hd]

/-- A segment is a step of DEC, not a command. -/
theorem decode_engine {bs rest : List Byte} {i : Instr} (h : decode bs = .ok (i, rest)) :
    i.engine = .dec ∧ i.isCommand = false := by
  unfold decode at h
  split at h
  · cases h
  · split at h
    · split at h
      · cases h
        exact ⟨rfl, rfl⟩
      · rename_i c _
        cases h
        rcases decodeDescriptor_cases c with ⟨-, hc⟩ | ⟨-, hc⟩ <;> rw [hc] <;> exact ⟨rfl, rfl⟩
    · cases h
      exact ⟨rfl, rfl⟩

/-- What an engine selects is a step of its own (R58, R69, R85). -/
theorem State.select_engine {s : State} {e : EngineId} {i : Instr} (h : s.select e = .run i) :
    i.engine = e ∧ i.isCommand = false := by
  cases e with
  | enc =>
    change s.enc.select = .run i at h
    unfold Enc.select at h
    split at h
    · cases h
    · split at h
      · cases h
        exact ⟨rfl, rfl⟩
      · split at h
        · rename_i la _
          cases h
          cases la <;> exact ⟨rfl, rfl⟩
        · cases h
    · cases h
      exact ⟨rfl, rfl⟩
    · cases h
  | dec =>
    change s.dec.select = .run i at h
    unfold Dec.select at h
    split at h
    · cases h
    · cases h
      exact ⟨rfl, rfl⟩
    · split at h
      · cases h
        exact ⟨rfl, rfl⟩
      · split at h
        · split at h
          · rename_i hd
            cases h
            exact decode_engine hd
          · cases h
        · cases h
    · cases h

/-- The window is the bytes of the working copy at CUR, at most two (R46, R86). -/
theorem Dec.window?_eq {d : Dec} {ws : List Byte} (h : d.workSeq? = some ws) :
    d.window? = some ((ws.drop d.eng.cur).take 2) := by
  obtain ⟨hl, hb⟩ := Memory.readSeq?_eq_some_iff.1 h
  refine Memory.readSeq?_eq_some_iff.2 ⟨by simp [hl], fun j hj => ?_⟩
  rw [List.getElem?_take_of_lt (by omega), List.getElem?_drop, ← hb _ (by omega), Nat.zero_add]

end Sys2Proof.Machine
end

