-- ==== Sys2Proof/Tests/Slice0.lean ====
section
/-! SUPPORT. Tests: ill-formed instructions, words written out from 30_encoding.md, the vectors of 95_test_vectors.md, and
for each obligation with hypotheses a witness that meets them. -/

namespace Sys2Proof.Tests

open Sys2Proof Sys2Proof.Machine

/-! ## WellFormed refuses what is out of range (R47, R56, R61) -/

theorem test_wf_refuses_literal_marker : (Instr.lit 0x00).wf = false := by decide
theorem test_wf_refuses_zrun_0 : (Instr.zrun 0).wf = false := by decide
theorem test_wf_refuses_zrun_129 : (Instr.zrun 129).wf = false := by decide
theorem test_wf_refuses_frun_0 : (Instr.frun 0 0).wf = false := by decide
theorem test_wf_refuses_frun_33 : (Instr.frun 3 33).wf = false := by decide
theorem test_wf_refuses_eLit_marker : (Instr.eLit 0x00).wf = false := by decide
theorem test_wf_refuses_eZrun_0 : (Instr.eZrun 0).wf = false := by decide
theorem test_wf_refuses_eZrun_129 : (Instr.eZrun 129).wf = false := by decide
theorem test_wf_refuses_eFrun_0 : (Instr.eFrun 0).wf = false := by decide
theorem test_wf_refuses_eFrun_33 : (Instr.eFrun 33).wf = false := by decide
theorem test_wf_admits_the_ends :
    (Instr.zrun 1).wf ∧ (Instr.zrun 128).wf ∧ (Instr.frun 3 1).wf ∧ (Instr.frun 0 32).wf ∧ (Instr.lit 0xFF).wf := by
  decide

/-! ## Words written out bit by bit (R47 to R50, R58, R20) -/

theorem test_decode_lit : decode [0b00101010] = .ok (.lit 0x2A, []) := by decide
/-- Marker, T = 0, N7 = 0000011: 4 zeros. -/
theorem test_decode_zrun : decode [0b00000000, 0b00000011, 0x55] = .ok (.zrun 4, [0x55]) := by decide
/-- Marker, T = 1, X = 00, N5 = 11111: 32 bytes 0xFF. -/
theorem test_decode_frun : decode [0b00000000, 0b10011111] = .ok (.frun 0 32, []) := by decide
/-- Marker, T = 1, X = 11, N5 = 00011 (DV9). -/
theorem test_decode_frun_x : decode [0b00000000, 0b11100011] = .ok (.frun 3 4, []) := by decide
/-- Marker, T = 1, X = 01, N5 = 00000 (DV8): X is read from bits 6:5. -/
theorem test_decode_frun_x1 : decode [0b00000000, 0b10100000] = .ok (.frun 1 1, []) := by decide
theorem test_decode_trunc : decode [0b00000000] = .ok (.trunc, []) := by decide
theorem test_decode_empty : decode [] = .error .endOfStream := by decide
theorem test_decode_ctrl : decodeCtrl .enc 0b00000001 = some .encStart ∧ decodeCtrl .dec 0b10000001 = some .decStart ∧
    decodeCtrl .enc 0b11111110 = none := by decide
/-- Bits 15:8 of a table word are the marker (R58). -/
theorem test_table_words : decodeTableWord 16 0x007F = some (.zrun 128) ∧ decodeTableWord 16 0x0080 = some (.frun 0 1) ∧
    decodeTableWord 8 0x00 = some .trunc ∧ decodeTableWord 8 0xFF = some (.lit 0xFF) := by decide
theorem test_encode_frun : encode (.frun 3 4) = some (.stream, [0x00, 0xE3]) := by decide

/-! ## States for tests -/

/-- An engine at `cur` of `input`, with `out` written. -/
def engineAt (input : List Byte) (cur : Nat) (out : List Byte) : Engine :=
  { inBuf := Memory.writeSeq [] 0 input
    inLen := input.length
    outBuf := Memory.writeSeq [] 0 out
    outLen := out.length
    cur := cur
    epoch := 0 }

/-- ENC at `cur` in `input`, with `out` written. -/
def encAt (phase : EncPhase) (input : List Byte) (cur : Nat) (out : List Byte) : State :=
  State.reset.setEnc { phase := phase, eng := engineAt input cur out }

/-- DEC at `cur` in the logical stream `work`, with `out` written. -/
def decAt (phase : DecPhase) (work : List Byte) (cur : Nat) (out : List Byte) : State :=
  State.reset.setDec
    { phase := phase
      eng := engineAt (neg4 work) cur out
      work := Memory.writeSeq [] 0 work
      err := false
      cause := 0 }

/-- DEC after MalformedStream in the stream `work`. -/
def decFailed (work : List Byte) : State :=
  (decAt .scan work (work.length - 1) []).setDec (decAt .scan work (work.length - 1) []).dec.raiseMalformed

/-- ENC's PHASE, CUR and output after a result. -/
def encView (r : Result) : Option (EncPhase × Nat × Option (List Byte)) :=
  (stateAfter r).map fun t => (t.enc.phase, t.enc.eng.cur, t.enc.eng.outSeq?)

/-- DEC's PHASE, CUR, output and CAUSE after a result. -/
def decView (r : Result) : Option (DecPhase × Nat × Option (List Byte) × Byte) :=
  (stateAfter r).map fun t => (t.dec.phase, t.dec.eng.cur, t.dec.eng.outSeq?, t.dec.cause)

/-! ## One step each: the vectors EV and DV -/

/-- EV2. -/
theorem test_eLit : encView (exec (.eLit 0xFF) (encAt .scan [0xFF, 0xFF] 0 [])) = some (.scan, 1, some [0xFF]) := by
  decide
/-- EV5: with two zeros the 0xFF after them is not looked at. -/
theorem test_eZrun : encView (exec (.eZrun 2) (encAt .scan [0x00, 0x00, 0xFF] 0 [])) =
    some (.scan, 2, some [0x00, 0x01]) := by decide
/-- EV3: no byte after the zero. -/
theorem test_eZrun_at_end : encView (exec (.eZrun 1) (encAt .scan [0x00] 0 [])) = some (.scan, 1, some [0x00, 0x00]) := by
  decide
/-- EV7. -/
theorem test_eFrun : encView (exec (.eFrun 2) (encAt .scan [0x00, 0xFF, 0xFF, 0x00] 0 [])) =
    some (.scan, 3, some [0x00, 0x81]) := by decide
/-- EV12: the count starts at the cursor, so the zero before it does not matter. -/
theorem test_eFrun_after_zero : encView (exec (.eFrun 1) (encAt .scan [0x00, 0x00, 0xFF] 1 [0x00, 0x7F])) =
    some (.scan, 3, some [0x00, 0x7F, 0x00, 0x80]) := by decide
/-- EV13. -/
theorem test_eEndscan : encView (exec .eEndscan (encAt .scan [0x12] 1 [0x12])) = some (.post, 1, some [0x12]) := by decide
/-- EV14. -/
theorem test_eNeg_short : encView (exec .eNeg (encAt .post [] 0 [0x12, 0x00, 0x02])) =
    some (.done, 0, some [0xED, 0xFF, 0xFD]) := by decide
/-- EV15. -/
theorem test_eNeg : encView (exec .eNeg (encAt .post [] 0 [1, 2, 3, 4, 5, 6])) =
    some (.done, 0, some [0xFE, 0xFD, 0xFC, 0xFB, 0x05, 0x06]) := by decide
/-- EV8, EV9, EV10, EV11: the caps. -/
theorem test_look_ahead_caps :
    classify (0x00 :: List.replicate 40 0xFF) 0 = some (.frun 32) ∧
    classify (0x00 :: List.replicate 40 0xFF) 33 = some (.literal 0xFF) ∧
    classify (List.replicate 200 0x00) 0 = some (.zrun 128) ∧
    classify (List.replicate 200 0x00) 128 = some (.zrun 72) := by decide +kernel

/-- DV1. -/
theorem test_lit : decView (exec (.lit 0x12) (decAt .scan [0x12, 0x34] 0 [])) = some (.scan, 1, some [0x12], 0) := by decide
/-- DV5. -/
theorem test_zrun : decView (exec (.zrun 6) (decAt .scan [0x00, 0x05] 0 [])) =
    some (.scan, 2, some [0, 0, 0, 0, 0, 0], 0) := by decide
/-- DV9. -/
theorem test_frun : decView (exec (.frun 3 4) (decAt .scan [0x00, 0xE3] 0 [])) =
    some (.scan, 2, some [0xFF, 0xFF, 0xFF, 0xFF], 0) := by decide
/-- DV15. -/
theorem test_frun_adjacent : decView (exec (.frun 0 1) (decAt .scan [0x00, 0x80, 0x00, 0x80] 2 [0xFF])) =
    some (.scan, 4, some [0xFF, 0xFF], 0) := by decide
/-- DV12: the output is discarded. -/
theorem test_trunc : decView (exec .trunc (decAt .scan [0x41, 0x00] 1 [0x41])) = some (.done, 1, some [], 1) := by decide
/-- DV14. -/
theorem test_trunc_after_zrun : decView (exec .trunc (decAt .scan [0x00, 0x00, 0x00] 2 [0x00])) =
    some (.done, 2, some [], 1) := by decide
/-- 2.2, D.UNNEG by input length: [AB CD EF 01 23] becomes [54 32 10 FE 23]. -/
theorem test_dUnneg :
    (stateAfter (exec .dUnneg (State.reset.setDec
      { Dec.reset with phase := .pre, eng := engineAt [0xAB, 0xCD, 0xEF, 0x01, 0x23] 0 [] }))).map
      (fun t => (t.dec.phase, t.dec.workSeq?, t.dec.inSeq)) =
    some (.scan, some [0x54, 0x32, 0x10, 0xFE, 0x23], [0xAB, 0xCD, 0xEF, 0x01, 0x23]) := by decide
/-- DV13. -/
theorem test_dEnd : decView (exec .dEnd (decAt .scan [0x41] 1 [0x41])) = some (.done, 1, some [0x41], 0) := by decide
theorem test_encStart : encView (exec .encStart (encAt .done [0x12] 1 [0xED])) = some (.scan, 0, some []) := by decide
/-- R126: START after MalformedStream clears CAUSE. -/
theorem test_decStart : decView (exec .decStart (decFailed [0x41, 0x00])) = some (.pre, 0, some [], 0) := by decide

/-! ## The step from the host's placement -/

theorem test_step_runs_frun_word : decView (step (State.reset.withFetchWord 16 0x0081)) =
    some (.scan, 2, some [0xFF, 0xFF], 0) := by decide
theorem test_step_runs_trunc_word : decView (step (State.reset.withFetchWord 8 0x00)) = some (.done, 0, some [], 1) := by
  decide

/-! ## The functions: S1, S4, S5, S6 -/

theorem test_compress_S1 : compress [0x00, 0xFF] = [0xFF, 0x7F] ∧ compress [0x00, 0x01] = [0xFF, 0xFF, 0xFE] ∧
    compress [0x00, 0xFF, 0xFF, 0x00, 0x00, 0x07] = [0xFF, 0x7E, 0xFF, 0xFE, 0x07] := by decide
theorem test_compress_S5 :
    compress [0, 0, 0, 0, 0x2A, 0xFF, 0xFF, 0xFF, 1, 2, 3, 0, 0xFF, 0, 0xAA, 0xBB, 0, 0xFF] =
      [0xFF, 0xFC, 0xD5, 0x00, 0xFF, 0xFF, 1, 2, 3, 0, 0x80, 0, 0, 0xAA, 0xBB, 0, 0x80] := by decide
theorem test_decompress_S6 : decompress [0xFF] = .error .malformedStream ∧ decompress [0xFF, 0xFF] = .ok [0x00] ∧
    decompress [0xFE, 0xFD, 0xFC, 0xFB, 0x00] = .error .malformedStream ∧ decompress [0x00] = .ok [0xFF] := by decide

/-! ## Witnesses: states that meet the invariant -/

/-- ENC between two productions (S1's `00 FF 12`), DEC before a lone marker. -/
def bothBusy : State :=
  (encAt .scan [0x00, 0xFF, 0x12] 2 [0x00, 0x80]).setDec (decAt .scan [0x41, 0x00] 1 [0x41]).dec

/-- ENC before E.NEG, DEC before D.UNNEG. -/
def atPhaseSteps : State := (encAt .post [0x12] 1 [0x12]).setDec (decAt .pre [0x41, 0x07] 0 []).dec

/-- ENC finished, DEC failed. -/
def bothDone : State := (encAt .done [0x12] 1 [0xED]).setDec (decFailed [0x41, 0x00]).dec

theorem witness_inv_both_busy : bothBusy.Inv where
  enc :=
    { eng := ⟨by decide, by decide, by decide⟩
      curLe := by decide
      scan := fun _ =>
        ⟨Boundary.step (i := 0) (la := .frun 1) Boundary.start (by decide), by decide⟩
      post := fun h => by cases h
      idle := fun h => by cases h }
  dec :=
    { eng := ⟨by decide, by decide, by decide⟩
      workWf := by decide
      curLe := by decide
      pre := fun h => by cases h
      scan := fun _ => ⟨by decide, [0x41], by decide, by decide⟩
      idle := fun h => by cases h
      err := fun h => by cases h
      noErr := fun _ => rfl }

theorem witness_inv_at_phase_steps : atPhaseSteps.Inv where
  enc :=
    { eng := ⟨by decide, by decide, by decide⟩
      curLe := by decide
      scan := fun h => by cases h
      post := fun _ => ⟨by decide, by decide⟩
      idle := fun h => by cases h }
  dec :=
    { eng := ⟨by decide, by decide, by decide⟩
      workWf := by decide
      curLe := by decide
      pre := fun _ => ⟨rfl, rfl⟩
      scan := fun h => by cases h
      idle := fun h => by cases h
      err := fun h => by cases h
      noErr := fun _ => rfl }

theorem witness_inv_both_done : bothDone.Inv where
  enc :=
    { eng := ⟨by decide, by decide, by decide⟩
      curLe := by decide
      scan := fun h => by cases h
      post := fun h => by cases h
      idle := fun h => by cases h }
  dec :=
    { eng := ⟨by decide, by decide, by decide⟩
      workWf := by decide
      curLe := by decide
      pre := fun h => by cases h
      scan := fun h => by cases h
      idle := fun h => by cases h
      err := fun _ => ⟨rfl, rfl, rfl⟩
      noErr := fun h => by cases h }

/-- Every buffer after reset has the canonical form. -/
theorem test_reset_buffers_canonical : State.reset.enc.eng.inBuf.wf ∧ State.reset.enc.eng.outBuf.wf ∧
    State.reset.dec.eng.inBuf.wf ∧ State.reset.dec.eng.outBuf.wf ∧ State.reset.dec.work.wf := by decide

/-! ## Witnesses: what the hypotheses of the obligations ask for -/

/-- A result that is a next state. -/
theorem next_of_isSome {r : Result} (h : (stateAfter r).isSome = true) : ∃ t, r = .next t := by
  cases r with
  | next t => exact ⟨t, rfl⟩
  | fault f => cases h
  | refused f => cases h

/-- The machine with these moves to come. -/
def withAgenda (s : State) (a : List Input) : State := { s with agenda := a }

/-- ErrIsSetByTruncAndClearedByStartOrReset: each clause. -/
theorem witness_err_set : (stateAfter (step (withAgenda bothBusy [.tick .dec]))).map (·.dec.err) = some true ∧
    bothBusy.dec.err = false := by decide
theorem witness_err_cleared_by_start :
    (stateAfter (step (withAgenda bothDone [.host (.writeCtrl .dec 0x01)]))).map (·.dec.err) = some false ∧
    bothDone.dec.err = true := by decide
theorem witness_err_cleared_by_reset :
    (stateAfter (step (withAgenda bothDone [.host (.reset .dec)]))).map (·.dec.err) = some false := by decide

/-- FinishedResultIsReadable: with and without an error. -/
theorem witness_finished : bothDone.Inv ∧ bothDone.done .enc = true ∧ bothDone.err .enc = false ∧
    bothDone.done .dec = true ∧ bothDone.err .dec = true := ⟨witness_inv_both_done, by decide⟩
/-- FinishedResultIsReadable, its last clause: a host write between two operations. -/
theorem witness_finished_stays : (stateAfter (step (withAgenda bothDone [.host (.writeIn .enc 0 0x55)]))).isSome = true ∧
    (withAgenda bothDone [.host (.writeIn .enc 0 0x55)]).turn.1 = .host (.writeIn .enc 0 0x55) := by decide

theorem witness_eLit : (encAt .scan [0x12, 0x00] 0 []).enc.phase = .scan ∧
    (encAt .scan [0x12, 0x00] 0 []).enc.inSeq[0]? = some 0x12 ∧ (0x12 : Byte) ≠ 0x00 := by decide
/-- EncoderEmitsZeroRun: z = 1 at the end of the input, and z = 128. -/
theorem witness_eZrun_1 : (encAt .scan [0x00] 0 []).enc.phase = .scan ∧ (encAt .scan [0x00] 0 []).enc.inSeq[0]? = some 0x00 ∧
    1 = zrun (encAt .scan [0x00] 0 []).enc.inSeq 0 ∧
    ¬ (1 = 1 ∧ (encAt .scan [0x00] 0 []).enc.inSeq[1]? = some 0xFF) := by decide
theorem witness_eZrun_128 : (encAt .scan (List.replicate 129 0x00) 0 []).enc.phase = .scan ∧
    (encAt .scan (List.replicate 129 0x00) 0 []).enc.inSeq[0]? = some 0x00 ∧
    128 = zrun (encAt .scan (List.replicate 129 0x00) 0 []).enc.inSeq 0 ∧
    ¬ (128 = 1 ∧ (encAt .scan (List.replicate 129 0x00) 0 []).enc.inSeq[1]? = some 0xFF) := by decide +kernel
/-- EncoderEmitsFullRunAndConsumesTrigger: f = 1 and f = 32. -/
theorem witness_eFrun_1 : (encAt .scan [0x00, 0xFF] 0 []).enc.phase = .scan ∧ (encAt .scan [0x00, 0xFF] 0 []).enc.inSeq[0]? = some 0x00 ∧
    (encAt .scan [0x00, 0xFF] 0 []).enc.inSeq[1]? = some 0xFF ∧
    1 = frun (encAt .scan [0x00, 0xFF] 0 []).enc.inSeq 1 := by decide
theorem witness_eFrun_32 : (encAt .scan (0x00 :: List.replicate 33 0xFF) 0 []).enc.phase = .scan ∧
    (encAt .scan (0x00 :: List.replicate 33 0xFF) 0 []).enc.inSeq[0]? = some 0x00 ∧
    (encAt .scan (0x00 :: List.replicate 33 0xFF) 0 []).enc.inSeq[1]? = some 0xFF ∧
    32 = frun (encAt .scan (0x00 :: List.replicate 33 0xFF) 0 []).enc.inSeq 1 := by decide +kernel
theorem witness_eEndscan : (encAt .scan [] 0 []).enc.phase = .scan ∧
    (encAt .scan [] 0 []).enc.eng.cur = (encAt .scan [] 0 []).enc.eng.inLen := by decide
/-- EncoderNegatesHeaderWindow: outputs of 0, 3 and 6 bytes. -/
theorem witness_eNeg_0 : (encAt .post [] 0 []).enc.phase = .post ∧ ∀ k, k < min 4 (encAt .post [] 0 []).enc.eng.outLen →
    (encAt .post [] 0 []).enc.eng.outBuf.read? k ≠ none := by decide
theorem witness_eNeg_3 : (encAt .post [] 0 [1, 2, 3]).enc.phase = .post ∧ ∀ k, k < min 4 (encAt .post [] 0 [1, 2, 3]).enc.eng.outLen →
    (encAt .post [] 0 [1, 2, 3]).enc.eng.outBuf.read? k ≠ none := by decide
theorem witness_eNeg_6 : (encAt .post [] 0 [1, 2, 3, 4, 5, 6]).enc.phase = .post ∧ ∀ k, k < min 4 (encAt .post [] 0 [1, 2, 3, 4, 5, 6]).enc.eng.outLen →
    (encAt .post [] 0 [1, 2, 3, 4, 5, 6]).enc.eng.outBuf.read? k ≠ none := by decide
/-- EncoderScanStepFrame, EnginesShareNoState, NoInstructionWritesInput: instructions of ENC that answer a next state. -/
theorem witness_frame_eLit : ∃ t, exec (.eLit 0x12) bothBusy = .next t := next_of_isSome (by decide)
theorem witness_frame_eZrun : ∃ t, exec (.eZrun 1) (encAt .scan [0x00] 0 []) = .next t := next_of_isSome (by decide)
theorem witness_frame_eFrun : ∃ t, exec (.eFrun 1) (encAt .scan [0x00, 0xFF] 0 []) = .next t :=
  next_of_isSome (by decide)

theorem witness_dUnneg : atPhaseSteps.dec.phase = .pre := rfl
theorem witness_lit : (decAt .scan [0x41] 0 []).dec.phase = .scan ∧
    (decAt .scan [0x41] 0 []).dec.eng.cur < (decAt .scan [0x41] 0 []).dec.eng.inLen ∧
    (decAt .scan [0x41] 0 []).dec.work.read? 0 = some 0x41 ∧ (0x41 : Byte) ≠ 0x00 := by decide
/-- A descriptor with the control byte `c` stands at the cursor. -/
def descriptorAt (c : Byte) : Bool :=
  decide ((decAt .scan [0x00, c] 0 []).dec.phase = .scan ∧
    (decAt .scan [0x00, c] 0 []).dec.eng.cur + 1 < (decAt .scan [0x00, c] 0 []).dec.eng.inLen ∧
    (decAt .scan [0x00, c] 0 []).dec.work.read? 0 = some 0x00 ∧
    (decAt .scan [0x00, c] 0 []).dec.work.read? 1 = some c)
/-- DecoderExpandsZeroRun: control bytes 00 and 7F, lengths 1 and 128. -/
theorem witness_zrun_ends : descriptorAt 0x00 ∧ (0x00 : Byte) &&& 0x80 = 0 ∧ 1 = ((0x00 : Byte) &&& 0x7F).toNat + 1 ∧
    descriptorAt 0x7F ∧ (0x7F : Byte) &&& 0x80 = 0 ∧ 128 = ((0x7F : Byte) &&& 0x7F).toNat + 1 := by decide
/-- DecoderExpandsFullRun: control bytes 80 and FF, lengths 1 and 32. -/
theorem witness_frun_ends : descriptorAt 0x80 ∧ (0x80 : Byte) &&& 0x80 ≠ 0 ∧ 1 = ((0x80 : Byte) &&& 0x1F).toNat + 1 ∧
    descriptorAt 0xFF ∧ (0xFF : Byte) &&& 0x80 ≠ 0 ∧ 32 = ((0xFF : Byte) &&& 0x1F).toNat + 1 := by decide
theorem witness_trunc : bothBusy.dec.phase = .scan ∧ bothBusy.dec.eng.cur + 1 = bothBusy.dec.eng.inLen ∧
    bothBusy.dec.work.read? bothBusy.dec.eng.cur = some 0x00 := by decide
theorem witness_dEnd : (decAt .scan [0x41] 1 [0x41]).dec.phase = .scan ∧
    (decAt .scan [0x41] 1 [0x41]).dec.eng.cur = (decAt .scan [0x41] 1 [0x41]).dec.eng.inLen ∧
    (decAt .scan [0x41] 1 [0x41]).dec.err = false := by decide
/-- DecoderScanStepFrame. -/
theorem witness_frame_lit : ∃ t, exec (.lit 0x41) (decAt .scan [0x41] 0 []) = .next t := next_of_isSome (by decide)
theorem witness_frame_zrun : ∃ t, exec (.zrun 2) (decAt .scan [0x00, 0x01] 0 []) = .next t :=
  next_of_isSome (by decide)
theorem witness_frame_frun : ∃ t, exec (.frun 1 1) (decAt .scan [0x00, 0xA0] 0 []) = .next t :=
  next_of_isSome (by decide)

/-- EncStartBeginsAnOperation, DecStartBeginsAnOperation, HostLoadsInput: engines that are not BUSY, after reset and
after an operation. -/
theorem witness_not_busy : State.reset.busy .enc = false ∧ State.reset.busy .dec = false ∧
    bothDone.busy .enc = false ∧ bothDone.busy .dec = false := by decide
/-- BusyEngineRefusesStartAndInputWrites. -/
theorem witness_busy : bothBusy.busy .enc = true ∧ bothBusy.busy .dec = true ∧ atPhaseSteps.busy .enc = true ∧
    atPhaseSteps.busy .dec = true ∧ (0x01 : Byte).getLsbD 0 = true := by decide

/-- StepRunsDecodedSegment: on DEC's turn, and with nothing on the agenda. -/
theorem witness_step_segment : (decAt .scan [0x00, 0xE3, 0x41] 0 []).dec.phase = .scan ∧
    (decAt .scan [0x00, 0xE3, 0x41] 0 []).dec.eng.cur < (decAt .scan [0x00, 0xE3, 0x41] 0 []).dec.eng.inLen ∧
    (decAt .scan [0x00, 0xE3, 0x41] 0 []).dec.window? = some [0x00, 0xE3] ∧
    decode [0x00, 0xE3] = .ok (.frun 3 4, []) ∧ (Instr.frun 3 4).wf = true ∧
    (decAt .scan [0x00, 0xE3, 0x41] 0 []).agenda = [] ∧ (decAt .scan [0x00, 0xE3, 0x41] 0 []).enc.busy = false := by
  decide
/-- StepRunsDetectedProduction. -/
theorem witness_step_production : bothBusy.enc.phase = .scan ∧
    classify bothBusy.enc.inSeq bothBusy.enc.eng.cur = some (.literal 0x12) := by decide
/-- StepRunsPhaseStepOrWaits: each clause. -/
theorem witness_step_phase : (withAgenda atPhaseSteps [.tick .enc]).agenda = .tick .enc :: [] ∧
    (withAgenda atPhaseSteps [.tick .enc]).enc.phase = .post ∧
    (withAgenda atPhaseSteps [.tick .dec]).dec.phase = .pre ∧ (withAgenda bothDone [.tick .enc]).enc.busy = false ∧
    (withAgenda bothDone [.tick .dec]).dec.busy = false ∧
    (withAgenda (encAt .scan [] 0 []) [.tick .enc]).enc.eng.cur = 0 := by decide

/-- DecodeOfEncodeIsIdentity: every place and every format. -/
theorem witness_encode : encode (.lit 0x01) = some (.stream, [0x01]) ∧ encode (.zrun 128) = some (.stream, [0x00, 0x7F]) ∧
    encode (.frun 3 32) = some (.stream, [0x00, 0xFF]) ∧ encode .trunc = some (.stream, [0x00]) ∧
    encode .encStart = some (.ctrl .enc, [0x01]) ∧ encode .decStart = some (.ctrl .dec, [0x01]) := by decide
/-- StreamsSegmentUniquely. -/
theorem witness_segments : ∀ i ∈ [Instr.lit 0x41, .zrun 1, .frun 2 32],
    i.wf = true ∧ i ≠ .trunc ∧ (encode i).map Prod.fst = some .stream := by decide
/-- EveryByteSequenceIsItsSegmentation: a stream that ends in a lone marker. -/
theorem witness_trunc_last : segments [0x41, 0x00] = [Instr.lit 0x41] ++ Instr.trunc :: [] := by decide

/-- StepKeepsInvariant, OnlyABadHostStopsTheMachine: steps of both engines and of the host from the states above. -/
theorem witness_step_enc : ∃ t, step (withAgenda bothBusy [.tick .enc]) = .next t := next_of_isSome (by decide)
theorem witness_step_dec : ∃ t, step (withAgenda atPhaseSteps [.tick .dec]) = .next t := next_of_isSome (by decide)
theorem witness_step_host : ∃ t, step (withAgenda bothDone [.host (.writeIn .enc 5 0x01)]) = .next t :=
  next_of_isSome (by decide)
theorem witness_bad_host : (withAgenda bothBusy [.host (.writeCtrl .enc 0x01)]).hostBreaksDuty :=
  ⟨.enc, [], rfl, .inr (.inr ⟨0x01, rfl, rfl⟩)⟩
theorem witness_good_host : ¬ (withAgenda bothBusy [.tick .enc]).hostBreaksDuty := by
  simp [State.hostBreaksDuty, withAgenda]

/-- EnginesShareNoState, NoInstructionWritesInput: instructions of DEC. -/
theorem witness_exec_trunc : ∃ t, exec .trunc bothBusy = .next t := next_of_isSome (by decide)
theorem witness_exec_decStart : ∃ t, exec .decStart bothDone = .next t := next_of_isSome (by decide)
/-- EngineStepsCommute. -/
theorem witness_commute : (∃ t, engineStep .enc bothBusy = .next t) ∧ ∃ u, engineStep .dec bothBusy = .next u :=
  ⟨next_of_isSome (by decide), next_of_isSome (by decide)⟩
/-- CursorOnlyMovesForward: a START and a reset event move the cursor back. -/
theorem witness_cursor_start :
    (stateAfter (step (withAgenda bothDone [.host (.writeCtrl .enc 0x01)]))).map (·.enc.eng.cur) = some 0 ∧
    bothDone.enc.eng.cur = 1 := by decide
theorem witness_cursor_reset :
    (stateAfter (step (withAgenda bothBusy [.host (.reset .enc)]))).map (·.enc.eng.cur) = some 0 ∧
    bothBusy.enc.eng.cur = 2 := by decide
/-- WorkIsInputUnnegatedOnDemand: the ends of the window. -/
theorem witness_work_window : (decAt .scan [1, 2, 3, 4, 5] 0 []).dec.phase = .scan ∧
    (decAt .scan [1, 2, 3, 4, 5] 0 []).dec.work.read? 3 = some 0x04 ∧
    (decAt .scan [1, 2, 3, 4, 5] 0 []).dec.work.read? 4 = some 0x05 ∧
    (decAt .scan [1, 2, 3, 4, 5] 0 []).dec.inSeq[3]? = some 0xFB ∧
    (decAt .scan [1, 2, 3, 4, 5] 0 []).dec.inSeq[4]? = some 0x05 := by decide
theorem witness_work_inv : (decAt .scan [1, 2, 3, 4, 5] 0 []).Inv where
  enc :=
    { eng := ⟨by decide, by decide, by decide⟩
      curLe := by decide
      scan := fun h => by cases h
      post := fun h => by cases h
      idle := fun _ => ⟨rfl, rfl⟩ }
  dec :=
    { eng := ⟨by decide, by decide, by decide⟩
      workWf := by decide
      curLe := by decide
      pre := fun h => by cases h
      scan := fun _ => ⟨by decide, [], by decide, by decide⟩
      idle := fun h => by cases h
      err := fun h => by cases h
      noErr := fun _ => rfl }

/-- LastStepLeavesTheResult: the three steps that end an operation, each from a state that meets the invariant. -/
theorem witness_last_eNeg : atPhaseSteps.Inv ∧ ∃ t, exec .eNeg atPhaseSteps = .next t :=
  ⟨witness_inv_at_phase_steps, next_of_isSome (by decide)⟩
theorem witness_last_trunc : bothBusy.Inv ∧ ∃ t, exec .trunc bothBusy = .next t :=
  ⟨witness_inv_both_busy, next_of_isSome (by decide)⟩
theorem witness_last_dEnd : (decAt .scan [0x41] 1 [0x41]).Inv ∧ ∃ t, exec .dEnd (decAt .scan [0x41] 1 [0x41]) = .next t where
  left :=
    { enc :=
        { eng := ⟨by decide, by decide, by decide⟩
          curLe := by decide
          scan := fun h => by cases h
          post := fun h => by cases h
          idle := fun _ => ⟨rfl, rfl⟩ }
      dec :=
        { eng := ⟨by decide, by decide, by decide⟩
          workWf := by decide
          curLe := by decide
          pre := fun h => by cases h
          scan := fun _ => ⟨by decide, [0x41], by decide, by decide⟩
          idle := fun h => by cases h
          err := fun h => by cases h
          noErr := fun _ => rfl } }
  right := next_of_isSome (by decide)

/-- EncoderOperationComputesCompress, DecoderOperationComputesDecompress: an agenda from a machine that has run before. -/
theorem witness_operation_enc :
    (withAgenda bothDone (operationMoves .enc [0x00, 0xFF] 0x03 ++ List.replicate 4 (.tick .enc))).busy .enc = false ∧
    (0x03 : Byte).getLsbD 0 = true ∧ [(0x00 : Byte), 0xFF].length + 2 ≤ 4 := by decide
theorem witness_operation_dec :
    (withAgenda bothDone (operationMoves .dec [0xD5, 0xFF] 0x01 ++ List.replicate 4 (.tick .dec))).busy .dec = false ∧
    decompress [0xD5, 0xFF] = .error .malformedStream ∧ decompress [0xD5] = .ok [0x2A] := by decide

/-- ZeroRunIsChunkedBy128 and FullRunIsCappedAt32 at the ends of their ranges (S3, S4). -/
theorem witness_runs : elog [0x00] = [0x00, 0x00] ∧ elog (0x00 :: [0xFF]) = [0x00, 0x80] := by decide
theorem witness_run_129 : elog (List.replicate 129 0x00) = [0x00, 0x7F, 0x00, 0x00] := by decide +kernel
theorem witness_run_33 : elog (0x00 :: List.replicate 33 0xFF) = [0x00, 0x9F, 0xFF] := by decide +kernel
/-- DecompressFailsExactlyOnLoneMarker, DecodedSizeBounds, DlogIsHomomorphicOnCompleteStreams. -/
theorem witness_decompress : decompress [0xFF] = .error .malformedStream ∧ (neg4 [0xD5]).getLast? = some 0x2A ∧
    decompress [0xFF, 0x00] = .ok (List.replicate 32 0xFF) ∧ dlog [0x00, 0x00] = .ok [0x00] ∧
    dlog [0x41, 0x00] = .error .malformedStream ∧ dlog [0x41] = .ok [0x41] := by decide
/-- RoundTripExactlyWithoutTriggerRun: an input with a trigger run, and one without. -/
theorem witness_trigger_run : hasTriggerRun [0x00, 0xFF] := ⟨[], [], 1, rfl, by decide, rfl⟩
/-- ElogFixesExactlyZeroFreeInputs, EncodingIsWellFormed, OnlyEmptyCodesToEmpty. -/
theorem witness_inputs : (0x00 : Byte) ∉ [(0x01 : Byte), 0xFF] ∧ Instr.frun 0 1 ∈ segments (elog [0x00, 0xFF]) ∧
    Instr.zrun 2 ∈ segments (elog [0x00, 0x00, 0xFF]) ∧ compress [] = [] ∧ decompress [] = .ok [] := by decide

end Sys2Proof.Tests
end

section
/-! PROOFS. The scope of the model (00_scope.md): what the run counts mean (R7, R61), and that the two engines share no
state (R2, R10). -/

namespace Sys2Proof.Machine

/-! ## Run counts -/

/-- What counting from index `i` gives, said of the bytes at `i + k` (R7): `countRun_eq_iff` for a suffix. -/
theorem countRun_drop_spec (v : Byte) (cap : Nat) (b : List Byte) (i : Nat) :
    countRun v cap (b.drop i) ≤ cap ∧
      (∀ k, k < countRun v cap (b.drop i) → b[i + k]? = some v) ∧
      (countRun v cap (b.drop i) = cap ∨ b[i + countRun v cap (b.drop i)]? ≠ some v) := by
  simpa only [List.getElem?_drop] using countRun_eq_iff.1 (rfl : countRun v cap (b.drop i) = _)

/-- At or beyond the end of the input nothing is counted (R61). -/
theorem frun_eq_zero_of_length_le {b : List Byte} {i : Nat} (h : b.length ≤ i) : frun b i = 0 := by
  have hle : frun b i ≤ (b.drop i).length := countRun_le_length _ _ _
  rw [List.length_drop] at hle
  omega

/-! ## One engine's instruction replaces that engine and nothing else -/

/-- Every instruction of ENC that answers a next state answers the old one with ENC replaced (R2, R10). -/
theorem exec_next_setEnc {i : Instr} {s t : State} (hi : i.engine = .enc) (h : exec i s = .next t) :
    ∃ e, t = s.setEnc e := by
  cases i with
  | eLit b => exact ⟨_, (execELit_eq_next_iff.1 h).2⟩
  | eZrun z => exact ⟨_, (execEZrun_eq_next_iff.1 h).2⟩
  | eFrun f => exact ⟨_, (execEFrun_eq_next_iff.1 h).2⟩
  | eEndscan => exact ⟨_, (execEEndscan_eq_next_iff.1 h).2⟩
  | eNeg =>
    obtain ⟨_, _, _, ht⟩ := execENeg_eq_next_iff.1 h
    exact ⟨_, ht⟩
  | encStart => exact ⟨_, (execEncStart_eq_next_iff.1 h).2⟩
  | lit | zrun | frun | trunc | dUnneg | dEnd | decStart => cases hi

/-- Every instruction of DEC that answers a next state answers the old one with DEC replaced (R2, R10). -/
theorem exec_next_setDec {i : Instr} {s t : State} (hi : i.engine = .dec) (h : exec i s = .next t) :
    ∃ d, t = s.setDec d := by
  cases i with
  | lit b => exact ⟨_, (execLit_eq_next_iff.1 h).2⟩
  | zrun n => exact ⟨_, (execZrun_eq_next_iff.1 h).2⟩
  | frun x n => exact ⟨_, (execFrun_eq_next_iff.1 h).2⟩
  | trunc => exact ⟨_, (execTrunc_eq_next_iff.1 h).2⟩
  | dUnneg => exact ⟨_, (execDUnneg_eq_next_iff.1 h).2⟩
  | dEnd => exact ⟨_, (execDEnd_eq_next_iff.1 h).2⟩
  | decStart => exact ⟨_, (execDecStart_eq_next_iff.1 h).2⟩
  | eLit | eZrun | eFrun | eEndscan | eNeg | encStart => cases hi

end Sys2Proof.Machine

namespace Sys2Proof.Proofs

open Sys2Proof.Machine

/-- Settles O6: both counts are `countRun` from an index on, and beyond the end there is nothing to count. -/
theorem runCountsAreLargestAndCapped : Obligations.RunCountsAreLargestAndCapped := by
  intro b i
  obtain ⟨hcap, hall, hstop⟩ := countRun_drop_spec Config.fillF Config.fcap b i
  exact ⟨countRun_drop_spec Config.fillZ Config.zcap b i, hcap, hall, hstop, frun_eq_zero_of_length_le⟩

/-- Settles O39, by the engine the instruction acts on: the next state is the old one with that engine replaced. -/
theorem enginesShareNoState : Obligations.EnginesShareNoState := by
  intro i s t h
  cases he : i.engine with
  | enc =>
    obtain ⟨e, rfl⟩ := exec_next_setEnc he h
    exact ⟨State.setEnc_agenda s e, fun _ => State.setEnc_dec s e, nofun⟩
  | dec =>
    obtain ⟨d, rfl⟩ := exec_next_setDec he h
    exact ⟨State.setDec_agenda s d, nofun, fun _ => State.setDec_enc s d⟩

end Sys2Proof.Proofs
end

section
/-! PROOFS. The state of the two engines (10_state.md): what one step can do to each of them, said once as a relation. -/

namespace Sys2Proof.Machine

/-! ## What an instruction does to its engine -/

/-- Instruction `i` takes ENC from `e` to `e'` (R62 to R66, R90); `exec_enc_eq_next_iff` ties it to `exec`. -/
inductive EncStep : Instr → Enc → Enc → Prop
  | scan {e : Enc} {la : LookAhead} (hp : e.phase = .scan) (hc : classify e.inSeq e.eng.cur = some la) :
      EncStep la.instr e { e with eng := (e.eng.emit la.emits).advance la.width }
  | endscan {e : Enc} (hp : e.phase = .scan) (hc : e.eng.cur = e.eng.inLen) :
      EncStep .eEndscan e { e with phase := .post }
  | neg {e : Enc} {bs : List Byte} (hp : e.phase = .post)
      (hb : e.eng.outBuf.readSeq? 0 (min Config.hdr e.eng.outLen) = some bs) :
      EncStep .eNeg e { e with
        phase := .done
        eng := { e.eng with outBuf := e.eng.outBuf.writeSeq 0 (bs.map (· ^^^ Config.negMask)) } }
  | start {e : Enc} (hb : e.busy = false) : EncStep .encStart e e.start

/-- Instruction `i` takes DEC from `d` to `d'` (R76 to R81, R91); `exec_dec_eq_next_iff` ties it to `exec`. -/
inductive DecStep : Instr → Dec → Dec → Prop
  | lit {d : Dec} {b : Byte} (hp : d.phase = .scan) (hh : d.literalHere b = true) :
      DecStep (.lit b) d { d with eng := (d.eng.emit [b]).advance 1 }
  | zrun {d : Dec} {n : Nat} (hp : d.phase = .scan)
      (hh : d.descriptorHere (fun c => !isFrunControl c && zrunLength c == n) = true) :
      DecStep (.zrun n) d { d with eng := (d.eng.emit (List.replicate n Config.fillZ)).advance 2 }
  | frun {d : Dec} {x : BitVec 2} {n : Nat} (hp : d.phase = .scan)
      (hh : d.descriptorHere (fun c => isFrunControl c && frunUnused c == x && frunLength c == n) = true) :
      DecStep (.frun x n) d { d with eng := (d.eng.emit (List.replicate n Config.fillF)).advance 2 }
  | trunc {d : Dec} (hp : d.phase = .scan) (hm : d.byteAt? 0 = some Config.marker)
      (hc : d.eng.cur + 1 = d.eng.inLen) : DecStep .trunc d d.raiseMalformed
  | unneg {d : Dec} (hp : d.phase = .pre) :
      DecStep .dUnneg d { d with phase := .scan, work := d.work.writeSeq 0 (neg4 d.inSeq) }
  | finish {d : Dec} (hp : d.phase = .scan) (hc : d.eng.cur = d.eng.inLen) : DecStep .dEnd d { d with phase := .done }
  | start {d : Dec} (hb : d.busy = false) : DecStep .decStart d d.start

/-- `exec` of an instruction of ENC answers the machine with ENC taken to the next ENC, and nothing else. -/
theorem exec_enc_eq_next_iff {i : Instr} {s t : State} (hi : i.engine = .enc) :
    exec i s = .next t ↔ ∃ e, EncStep i s.enc e ∧ t = s.setEnc e := by
  constructor
  · intro h
    cases i with
    | eLit b =>
      obtain ⟨⟨hp, hc⟩, rfl⟩ := execELit_eq_next_iff.1 h
      exact ⟨_, .scan hp hc, rfl⟩
    | eZrun z =>
      obtain ⟨⟨hp, hc⟩, rfl⟩ := execEZrun_eq_next_iff.1 h
      exact ⟨_, .scan hp hc, rfl⟩
    | eFrun f =>
      obtain ⟨⟨hp, hc⟩, rfl⟩ := execEFrun_eq_next_iff.1 h
      exact ⟨_, .scan hp hc, rfl⟩
    | eEndscan =>
      obtain ⟨⟨hp, hc⟩, rfl⟩ := execEEndscan_eq_next_iff.1 h
      exact ⟨_, .endscan hp hc, rfl⟩
    | eNeg =>
      obtain ⟨hp, bs, hb, rfl⟩ := execENeg_eq_next_iff.1 h
      exact ⟨_, .neg hp hb, rfl⟩
    | encStart =>
      obtain ⟨hb, rfl⟩ := execEncStart_eq_next_iff.1 h
      exact ⟨_, .start hb, rfl⟩
    | lit | zrun | frun | trunc | dUnneg | dEnd | decStart => cases hi
  · rintro ⟨e, he, rfl⟩
    cases he with
    | scan hp hc => exact (exec_instr_of_lookAhead _ s).trans (encScan_eq_next_iff.2 ⟨⟨hp, hc⟩, rfl⟩)
    | endscan hp hc => exact execEEndscan_eq_next_iff.2 ⟨⟨hp, hc⟩, rfl⟩
    | neg hp hb => exact execENeg_eq_next_iff.2 ⟨hp, _, hb, rfl⟩
    | start hb => exact execEncStart_eq_next_iff.2 ⟨hb, rfl⟩

/-- `exec` of an instruction of DEC answers the machine with DEC taken to the next DEC, and nothing else. -/
theorem exec_dec_eq_next_iff {i : Instr} {s t : State} (hi : i.engine = .dec) :
    exec i s = .next t ↔ ∃ d, DecStep i s.dec d ∧ t = s.setDec d := by
  constructor
  · intro h
    cases i with
    | lit b =>
      obtain ⟨⟨hp, hh⟩, rfl⟩ := execLit_eq_next_iff.1 h
      exact ⟨_, .lit hp hh, rfl⟩
    | zrun n =>
      obtain ⟨⟨hp, hh⟩, rfl⟩ := execZrun_eq_next_iff.1 h
      exact ⟨_, .zrun hp hh, rfl⟩
    | frun x n =>
      obtain ⟨⟨hp, hh⟩, rfl⟩ := execFrun_eq_next_iff.1 h
      exact ⟨_, .frun hp hh, rfl⟩
    | trunc =>
      obtain ⟨⟨hp, hm, hc⟩, rfl⟩ := execTrunc_eq_next_iff.1 h
      exact ⟨_, .trunc hp hm hc, rfl⟩
    | dUnneg =>
      obtain ⟨hp, rfl⟩ := execDUnneg_eq_next_iff.1 h
      exact ⟨_, .unneg hp, rfl⟩
    | dEnd =>
      obtain ⟨⟨hp, hc⟩, rfl⟩ := execDEnd_eq_next_iff.1 h
      exact ⟨_, .finish hp hc, rfl⟩
    | decStart =>
      obtain ⟨hb, rfl⟩ := execDecStart_eq_next_iff.1 h
      exact ⟨_, .start hb, rfl⟩
    | eLit | eZrun | eFrun | eEndscan | eNeg | encStart => cases hi
  · rintro ⟨d, hd, rfl⟩
    cases hd with
    | lit hp hh => exact execLit_eq_next_iff.2 ⟨⟨hp, hh⟩, rfl⟩
    | zrun hp hh => exact execZrun_eq_next_iff.2 ⟨⟨hp, hh⟩, rfl⟩
    | frun hp hh => exact execFrun_eq_next_iff.2 ⟨⟨hp, hh⟩, rfl⟩
    | trunc hp hm hc => exact execTrunc_eq_next_iff.2 ⟨⟨hp, hm, hc⟩, rfl⟩
    | unneg hp => exact execDUnneg_eq_next_iff.2 ⟨hp, rfl⟩
    | finish hp hc => exact execDEnd_eq_next_iff.2 ⟨⟨hp, hc⟩, rfl⟩
    | start hb => exact execDecStart_eq_next_iff.2 ⟨hb, rfl⟩

/-! ## What one turn, and one step of the machine, does to an engine -/

/-- One turn of ENC takes it from `e` to `e'`: its selected step, or waiting (R69, R130). -/
inductive EncTurn : Enc → Enc → Prop
  | wait {e : Enc} (hs : e.select = .waiting) : EncTurn e e
  | run {e e' : Enc} {i : Instr} (hs : e.select = .run i) (h : EncStep i e e') : EncTurn e e'

/-- One turn of DEC takes it from `d` to `d'`: its selected step, or waiting (R85, R130). -/
inductive DecTurn : Dec → Dec → Prop
  | wait {d : Dec} (hs : d.select = .waiting) : DecTurn d d
  | run {d d' : Dec} {i : Instr} (hs : d.select = .run i) (h : DecStep i d d') : DecTurn d d'

theorem Enc.select_engine {e : Enc} {i : Instr} (h : e.select = .run i) : i.engine = .enc ∧ i.isCommand = false :=
  State.select_engine (s := { State.reset with enc := e }) (e := .enc) h

theorem Dec.select_engine {d : Dec} {i : Instr} (h : d.select = .run i) : i.engine = .dec ∧ i.isCommand = false :=
  State.select_engine (s := { State.reset with dec := d }) (e := .dec) h

theorem engineStep_eq_next_iff {e : EngineId} {s t : State} :
    engineStep e s = .next t ↔
      (s.select e = .waiting ∧ t = s) ∨ ∃ i, s.select e = .run i ∧ exec i s = .next t := by
  unfold engineStep
  cases hs : s.select e with
  | waiting => simp [eq_comm]
  | run i => simp
  | stuck f => simp

/-- ENC's turn looks at ENC alone and replaces ENC alone (R2, R10). -/
theorem engineStep_enc_eq_next_iff {s t : State} :
    engineStep .enc s = .next t ↔ ∃ e, EncTurn s.enc e ∧ t = s.setEnc e := by
  rw [engineStep_eq_next_iff]
  constructor
  · rintro (⟨hs, rfl⟩ | ⟨i, hs, h⟩)
    · exact ⟨_, .wait hs, rfl⟩
    · obtain ⟨e, he, rfl⟩ := (exec_enc_eq_next_iff (State.select_engine hs).1).1 h
      exact ⟨e, .run hs he, rfl⟩
  · rintro ⟨e, he, rfl⟩
    cases he with
    | wait hs => exact .inl ⟨hs, rfl⟩
    | run hs h => exact .inr ⟨_, hs, (exec_enc_eq_next_iff (Enc.select_engine hs).1).2 ⟨e, h, rfl⟩⟩

/-- DEC's turn looks at DEC alone and replaces DEC alone (R2, R10). -/
theorem engineStep_dec_eq_next_iff {s t : State} :
    engineStep .dec s = .next t ↔ ∃ d, DecTurn s.dec d ∧ t = s.setDec d := by
  rw [engineStep_eq_next_iff]
  constructor
  · rintro (⟨hs, rfl⟩ | ⟨i, hs, h⟩)
    · exact ⟨_, .wait hs, rfl⟩
    · obtain ⟨d, hd, rfl⟩ := (exec_dec_eq_next_iff (State.select_engine hs).1).1 h
      exact ⟨d, .run hs hd, rfl⟩
  · rintro ⟨d, hd, rfl⟩
    cases hd with
    | wait hs => exact .inl ⟨hs, rfl⟩
    | run hs h => exact .inr ⟨_, hs, (exec_dec_eq_next_iff (Dec.select_engine hs).1).2 ⟨d, h, rfl⟩⟩

theorem writeInput_eq_next_iff {e : EngineId} {f : Engine → Engine} {s t : State} :
    writeInput e f s = .next t ↔ s.busy e = false ∧ t = s.setEng e (f (s.eng e)) := by
  unfold writeInput
  split
  · rename_i h
    simp [h]
  · rename_i h
    simp [h, eq_comm]

/-- What the move `i` can do to ENC (R10, R20, R93, R135): a move of the other engine leaves it alone. -/
inductive EncMove : Input → Enc → Enc → Prop
  | stay {i : Input} {e : Enc} : EncMove i e e
  | turn {e e' : Enc} (h : EncTurn e e') : EncMove (.tick .enc) e e'
  | writeIn {e : Enc} (k : Nat) (b : Byte) (hb : e.busy = false) :
      EncMove (.host (.writeIn .enc k b)) e { e with eng := e.eng.writeIn k b }
  | writeInLen {e : Enc} (n : Nat) (hb : e.busy = false) :
      EncMove (.host (.writeInLen .enc n)) e { e with eng := e.eng.writeInLen n }
  | start {e e' : Enc} {v : Byte} (hv : v.getLsbD 0 = true) (h : EncStep .encStart e e') :
      EncMove (.host (.writeCtrl .enc v)) e e'
  | reset {e : Enc} : EncMove (.host (.reset .enc)) e e.resetEvent

/-- What the move `i` can do to DEC (R10, R20, R93, R135): a move of the other engine leaves it alone. -/
inductive DecMove : Input → Dec → Dec → Prop
  | stay {i : Input} {d : Dec} : DecMove i d d
  | turn {d d' : Dec} (h : DecTurn d d') : DecMove (.tick .dec) d d'
  | writeIn {d : Dec} (k : Nat) (b : Byte) (hb : d.busy = false) :
      DecMove (.host (.writeIn .dec k b)) d { d with eng := d.eng.writeIn k b }
  | writeInLen {d : Dec} (n : Nat) (hb : d.busy = false) :
      DecMove (.host (.writeInLen .dec n)) d { d with eng := d.eng.writeInLen n }
  | start {d d' : Dec} {v : Byte} (hv : v.getLsbD 0 = true) (h : DecStep .decStart d d') :
      DecMove (.host (.writeCtrl .dec v)) d d'
  | reset {d : Dec} : DecMove (.host (.reset .dec)) d d.resetEvent

/-- A host move is a move of each engine. -/
theorem hostMove_moves {m : HostMove} {s t : State} (h : hostMove m s = .next t) :
    EncMove (.host m) s.enc t.enc ∧ DecMove (.host m) s.dec t.dec := by
  cases m with
  | writeIn e k b =>
    obtain ⟨hb, rfl⟩ := writeInput_eq_next_iff (f := (·.writeIn k b)).1 h
    cases e with
    | enc => exact ⟨.writeIn k b hb, .stay⟩
    | dec => exact ⟨.stay, .writeIn k b hb⟩
  | writeInLen e n =>
    obtain ⟨hb, rfl⟩ := writeInput_eq_next_iff (f := (·.writeInLen n)).1 h
    cases e with
    | enc => exact ⟨.writeInLen n hb, .stay⟩
    | dec => exact ⟨.stay, .writeInLen n hb⟩
  | writeCtrl e v =>
    rcases hostMove_writeCtrl_cases h with rfl | ⟨hv, hs⟩
    · exact ⟨.stay, .stay⟩
    · cases e with
      | enc =>
        obtain ⟨e, he, rfl⟩ := (exec_enc_eq_next_iff rfl).1 hs
        exact ⟨.start hv he, .stay⟩
      | dec =>
        obtain ⟨d, hd, rfl⟩ := (exec_dec_eq_next_iff rfl).1 hs
        exact ⟨.stay, .start hv hd⟩
  | reset e =>
    cases h
    cases e with
    | enc => exact ⟨.reset, .stay⟩
    | dec => exact ⟨.stay, .reset⟩

/-- One step of the machine is a move of each engine, whatever the agenda: what a step can do, said once. -/
theorem step_moves {s t : State} (h : step s = .next t) :
    EncMove s.turn.1 s.enc t.enc ∧ DecMove s.turn.1 s.dec t.dec := by
  unfold step at h
  rw [← State.turn_enc s, ← State.turn_dec s]
  generalize s.turn.2 = u at h
  cases hi : s.turn.1 with
  | host m =>
    rw [hi] at h
    exact hostMove_moves h
  | tick e =>
    rw [hi] at h
    cases e with
    | enc =>
      obtain ⟨e, he, rfl⟩ := engineStep_enc_eq_next_iff.1 h
      exact ⟨.turn he, .stay⟩
    | dec =>
      obtain ⟨d, hd, rfl⟩ := engineStep_dec_eq_next_iff.1 h
      exact ⟨.stay, .turn hd⟩

end Sys2Proof.Machine
end

section
/-! PROOFS. The state of the two engines, continued: the invariant of R26, step by step. -/

namespace Sys2Proof.Machine

/-! ## Reading what was written -/

/-- Writing never makes a byte unwritten. -/
theorem Memory.read?_writeSeq_ne_none {m : Memory} {a : Nat} (h : m.read? a ≠ none) (k : Nat) (bs : List Byte) :
    (m.writeSeq k bs).read? a ≠ none := by
  rw [Memory.read?_writeSeq]
  split
  · simp only [ne_eq, List.getElem?_eq_none_iff]
    omega
  · exact h

/-- A range inside a range that can be read. -/
theorem Memory.readSeq?_sub {m : Memory} {n k l : Nat} {ws : List Byte} (h : m.readSeq? 0 n = some ws)
    (hl : k + l ≤ n) : m.readSeq? k l = some ((ws.drop k).take l) := by
  obtain ⟨hlen, hb⟩ := Memory.readSeq?_eq_some_iff.1 h
  refine Memory.readSeq?_eq_some_iff.2 ⟨by simp; omega, fun j hj => ?_⟩
  rw [List.getElem?_take_of_lt hj, List.getElem?_drop, ← hb (k + j) (by omega), Nat.zero_add]

/-- Rewriting the header window inverted makes the sequence its header negation (R50, R66). -/
theorem Memory.readSeq?_negated {m : Memory} {n : Nat} {out bs : List Byte} (h : m.readSeq? 0 n = some out)
    (hb : m.readSeq? 0 (min Config.hdr n) = some bs) :
    (m.writeSeq 0 (bs.map (· ^^^ Config.negMask))).readSeq? 0 n = some (neg4 out) := by
  have hbs : bs = out.take (min 4 n) := by
    rw [Memory.readSeq?_sub h (by omega)] at hb
    exact (Option.some.inj hb).symm
  obtain ⟨hlen, hout⟩ := Memory.readSeq?_eq_some_iff.1 h
  refine Memory.readSeq?_eq_some_iff.2 ⟨by simp [hlen], fun j hj => ?_⟩
  rw [Memory.read?_writeSeq, neg4_getElem?, hout j hj, hbs, Nat.zero_add]
  by_cases h4 : j < 4
  · rw [if_pos (by simp; omega)]
    simp [h4, hj, Config.negMask]
  · rw [if_neg (by simp; omega)]
    simp [h4]

/-! ## The engines' buffers stay sound -/

theorem Engine.Inv.of_outLen_eq_zero {e : Engine} (hi : e.inBuf.wf) (ho : e.outBuf.wf) (h0 : e.outLen = 0) : e.Inv :=
  ⟨hi, ho, fun k hk => absurd hk (by omega)⟩

theorem Engine.Inv.start {e : Engine} (h : e.Inv) : e.start.Inv := .of_outLen_eq_zero h.inWf h.outWf rfl

theorem Engine.Inv.discardOut {e : Engine} (h : e.Inv) : e.discardOut.Inv := .of_outLen_eq_zero h.inWf h.outWf rfl

theorem Engine.Inv.writeIn {e : Engine} (h : e.Inv) (k : Nat) (b : Byte) : (e.writeIn k b).Inv :=
  ⟨Memory.wf_write h.inWf k b, h.outWf, h.outWritten⟩

theorem Engine.Inv.writeInLen {e : Engine} (h : e.Inv) (n : Nat) : (e.writeInLen n).Inv :=
  ⟨h.inWf, h.outWf, h.outWritten⟩

theorem Engine.Inv.writeOut {e : Engine} (h : e.Inv) (k : Nat) (bs : List Byte) :
    Engine.Inv { e with outBuf := e.outBuf.writeSeq k bs } :=
  ⟨h.inWf, Memory.wf_writeSeq h.outWf k bs, fun a ha => Memory.read?_writeSeq_ne_none (h.outWritten a ha) k bs⟩

theorem Engine.inv_reset : Engine.reset.Inv := .of_outLen_eq_zero .nil .nil rfl

/-! ## ENC keeps its invariant -/

/-- While ENC is not BUSY nothing is said of IN (log entry 13). -/
theorem Enc.inv_of_not_busy {e : Enc} (hb : e.busy = false) (he : e.eng.Inv)
    (hi : e.phase = .idle → e.eng.cur = 0 ∧ e.eng.outLen = 0) : e.Inv where
  eng := he
  curLe h := absurd h (by simp [hb])
  scan h := absurd (e.busy_iff.2 (.inl h)) (by simp [hb])
  post h := absurd (e.busy_iff.2 (.inr h)) (by simp [hb])
  idle := hi

/-- While ENC scans, the boundary and the output say the rest. -/
theorem Enc.inv_of_scan {e : Enc} (hp : e.phase = .scan) (he : e.eng.Inv) (hb : Boundary e.inSeq e.eng.cur)
    (ho : e.eng.outSeq? = some (elog (e.inSeq.take e.eng.cur))) : e.Inv where
  eng := he
  curLe _ := by simpa using hb.le_length
  scan _ := ⟨hb, ho⟩
  post h := absurd (hp.symm.trans h) nofun
  idle h := absurd (hp.symm.trans h) nofun

/-- Every instruction of ENC keeps ENC's invariant. -/
theorem EncStep.inv {i : Instr} {e e' : Enc} (hs : EncStep i e e') (h : e.Inv) : e'.Inv := by
  cases hs with
  | @scan _ la hp hc =>
    obtain ⟨hb, ho⟩ := h.scan hp
    refine Enc.inv_of_scan hp (h.eng.emit_advance _ _) (.step hb hc) ?_
    rw [Engine.advance_outSeq?, Engine.emit_outSeq?, ho]
    exact congrArg some (elog_take_step hb hc).symm
  | endscan hp hc =>
    obtain ⟨-, ho⟩ := h.scan hp
    have hall : e.inSeq.take e.eng.cur = e.inSeq := List.take_of_length_le (by simp [hc])
    exact ⟨h.eng, fun _ => hc.le, nofun, fun _ => ⟨hc, hall ▸ ho⟩, nofun⟩
  | neg hp hb => exact Enc.inv_of_not_busy rfl (h.eng.writeOut _ _) nofun
  | start hb => exact Enc.inv_of_scan rfl h.eng.start .start (by simp)

/-- Every move keeps ENC's invariant. -/
theorem EncMove.inv {i : Input} {e e' : Enc} (hm : EncMove i e e') (h : e.Inv) : e'.Inv := by
  cases hm with
  | stay => exact h
  | turn ht =>
    cases ht with
    | wait => exact h
    | run _ hs => exact hs.inv h
  | writeIn k b hb => exact Enc.inv_of_not_busy hb (h.eng.writeIn k b) h.idle
  | writeInLen n hb => exact Enc.inv_of_not_busy hb (h.eng.writeInLen n) h.idle
  | start _ hs => exact hs.inv h
  | reset => exact Enc.inv_of_not_busy rfl (Engine.inv_resetEvent _) fun _ => ⟨rfl, rfl⟩

/-! ## The decoder's segments -/

/-- The bytes `seg` stand at CUR in `WORK`, all of them below `IN_LEN` (R46, R86). -/
def Dec.bytesHere (d : Dec) (seg : List Byte) : Prop :=
  d.eng.cur + seg.length ≤ d.eng.inLen ∧ d.work.readSeq? d.eng.cur seg.length = some seg

theorem Dec.bytesHere_of_byteAt? {d : Dec} {b : Byte} (h : d.byteAt? 0 = some b) : d.bytesHere [b] := by
  obtain ⟨hl, hr⟩ := Dec.byteAt?_eq_some_iff.1 h
  rw [Nat.add_zero] at hr
  exact ⟨hl, by simp [Memory.readSeq?, hr]⟩

/-- D.LIT's segment (R77) is one byte that stands for itself. -/
theorem Dec.bytesHere_of_literalHere {d : Dec} {b : Byte} (h : d.literalHere b = true) :
    d.bytesHere [b] ∧ b ≠ Config.marker := by
  obtain ⟨hl, hr, hb⟩ := Dec.literalHere_iff.1 h
  exact ⟨Dec.bytesHere_of_byteAt? (Dec.byteAt?_eq_some_iff.2 ⟨hl, hr⟩), hb⟩

/-- The segment of D.ZRUN and D.FRUN (R78, R79) is the marker and a control byte. -/
theorem Dec.bytesHere_of_descriptorHere {d : Dec} {p : Byte → Bool} (h : d.descriptorHere p = true) :
    ∃ c, d.bytesHere [Config.marker, c] ∧ p c = true := by
  obtain ⟨hl, hm, c, hc, hp⟩ := Dec.descriptorHere_iff.1 h
  exact ⟨c, ⟨hl, by simp [Memory.readSeq?, hm, hc]⟩, hp⟩

/-- What is consumed once the bytes at CUR are passed: what was consumed before, and those bytes. -/
theorem Dec.bytesHere.take_eq {d : Dec} {seg ws : List Byte} (h : d.bytesHere seg) (hw : d.workSeq? = some ws) :
    ws.take (d.eng.cur + seg.length) = ws.take d.eng.cur ++ seg := by
  obtain ⟨hl, hr⟩ := h
  have hseg : (ws.drop d.eng.cur).take seg.length = seg :=
    Option.some.inj ((Memory.readSeq?_sub hw hl).symm.trans hr)
  rw [List.take_add, hseg]

/-- A descriptor stands for some run of bytes, whatever follows it (R84). -/
theorem dlog_descriptor (c : Byte) :
    ∃ run, ∀ rest, dlog (Config.marker :: c :: rest) = (dlog rest).map (run ++ ·) := by
  cases hc : isFrunControl c with
  | false => exact ⟨_, dlogWith_zrun _ hc⟩
  | true => exact ⟨_, dlogWith_frun _ hc⟩

/-- The induction step of `dlog_append`: a segment that stands for `run`, in front of a stream that can be cut. -/
theorem dlog_append_run {run rest t r : List Byte}
    (ih : ∀ {r}, dlog rest = .ok r → dlog (rest ++ t) = (dlog t).map (r ++ ·))
    (h : (dlog rest).map (run ++ ·) = .ok r) : (dlog (rest ++ t)).map (run ++ ·) = (dlog t).map (r ++ ·) := by
  cases hr : dlog rest with
  | error => simp [hr, Except.map] at h
  | ok r' =>
    obtain rfl : run ++ r' = r := by simpa [hr, Except.map] using h
    rw [ih hr]
    cases dlog t <;> simp [Except.map]

/-- Decoding a complete stream and what follows it: `Dlog` can be cut at any segment boundary (R26 (c), R84). -/
theorem dlog_append {s r : List Byte} (h : dlog s = .ok r) (t : List Byte) : dlog (s ++ t) = (dlog t).map (r ++ ·) := by
  induction s using stream_induction generalizing r with
  | nil =>
    obtain rfl : [] = r := by simpa [dlog] using h
    cases ht : dlog t <;> simp [ht, Except.map]
  | trunc => simp [dlog] at h
  | literal b rest hb ih =>
    have hlit : ∀ rest, dlog (b :: rest) = (dlog rest).map ([b] ++ ·) := dlogWith_literal _ hb
    rw [hlit] at h
    rw [List.cons_append, hlit]
    exact dlog_append_run ih h
  | descriptor c rest ih =>
    obtain ⟨run, hrun⟩ := dlog_descriptor c
    rw [hrun] at h
    rw [List.cons_append, List.cons_append, hrun]
    exact dlog_append_run ih h

theorem dlog_literal {b : Byte} (h : b ≠ Config.marker) : dlog [b] = .ok [b] := dlogWith_literal _ h []

theorem dlog_zrun {c : Byte} (h : isFrunControl c = false) :
    dlog [Config.marker, c] = .ok (List.replicate (zrunLength c) Config.fillZ) := by
  simp [dlog, dlogWith_zrun _ h, Except.map]

theorem dlog_frun {c : Byte} (h : isFrunControl c = true) :
    dlog [Config.marker, c] = .ok (List.replicate (frunLength c) Config.fillF) := by
  simp [dlog, dlogWith_frun _ h, Except.map, frunLength]

/-! ## DEC keeps its invariant -/

/-- ERR is 1 only in DONE (R26 (d)). -/
theorem Dec.Inv.err_eq_false {d : Dec} (h : d.Inv) (hp : d.phase ≠ .done) : d.err = false := by
  by_contra hn
  exact hp (h.err (by simpa using hn)).1

/-- While DEC is not BUSY nothing is said of IN and WORK but that they are canonical (log entry 13). -/
theorem Dec.inv_of_not_busy {d : Dec} (hb : d.busy = false) (he : d.eng.Inv) (hw : d.work.wf)
    (hi : d.phase = .idle → d.eng.cur = 0 ∧ d.eng.outLen = 0)
    (herr : d.err = true → d.phase = .done ∧ d.eng.outLen = 0 ∧ d.cause = Config.errCodeMalformed)
    (hno : d.err = false → d.cause = 0) : d.Inv where
  eng := he
  workWf := hw
  curLe h := absurd h (by simp [hb])
  pre h := absurd (d.busy_iff.2 (.inl h)) (by simp [hb])
  scan h := absurd (d.busy_iff.2 (.inr h)) (by simp [hb])
  idle := hi
  err := herr
  noErr := hno

/-- While DEC scans, WORK, the output and the clear error say the rest. -/
theorem Dec.inv_of_scan {d : Dec} {out : List Byte} (hp : d.phase = .scan) (he : d.eng.Inv) (hw : d.work.wf)
    (hc : d.eng.cur ≤ d.eng.inLen) (hws : d.workSeq? = some (neg4 d.inSeq)) (ho : d.eng.outSeq? = some out)
    (hd : dlog ((neg4 d.inSeq).take d.eng.cur) = .ok out) (herr : d.err = false) (hcause : d.cause = 0) : d.Inv where
  eng := he
  workWf := hw
  curLe _ := hc
  pre h := absurd (hp.symm.trans h) nofun
  scan _ := ⟨hws, out, ho, hd⟩
  idle h := absurd (hp.symm.trans h) nofun
  err h := absurd h (by simp [herr])
  noErr _ := hcause

/-- A scan step that passes the segment at CUR and appends what it stands for keeps the invariant (R77 to R79). -/
theorem Dec.Inv.segment {d : Dec} {seg bs : List Byte} (h : d.Inv) (hp : d.phase = .scan) (hs : d.bytesHere seg)
    (hd : dlog seg = .ok bs) : Dec.Inv { d with eng := (d.eng.emit bs).advance seg.length } := by
  obtain ⟨hw, out, ho, hout⟩ := h.scan hp
  have herr := h.err_eq_false (by simp [hp])
  refine Dec.inv_of_scan (out := out ++ bs) hp (h.eng.emit_advance _ _) h.workWf hs.1 hw ?_ ?_ herr (h.noErr herr)
  · rw [Engine.advance_outSeq?, Engine.emit_outSeq?, ho]
    rfl
  · change dlog ((neg4 d.inSeq).take (d.eng.cur + seg.length)) = _
    rw [hs.take_eq hw, dlog_append hout, hd]
    rfl

/-- Every instruction of DEC keeps DEC's invariant. -/
theorem DecStep.inv {i : Instr} {d d' : Dec} (hs : DecStep i d d') (h : d.Inv) : d'.Inv := by
  cases hs with
  | lit hp hh =>
    obtain ⟨hb, hne⟩ := Dec.bytesHere_of_literalHere hh
    exact h.segment hp hb (dlog_literal hne)
  | zrun hp hh =>
    obtain ⟨c, hb, hc⟩ := Dec.bytesHere_of_descriptorHere hh
    obtain ⟨hf, rfl⟩ : isFrunControl c = false ∧ zrunLength c = _ := by simpa using hc
    exact h.segment hp hb (dlog_zrun hf)
  | frun hp hh =>
    obtain ⟨c, hb, hc⟩ := Dec.bytesHere_of_descriptorHere hh
    obtain ⟨⟨hf, -⟩, rfl⟩ : (isFrunControl c = true ∧ frunUnused c = _) ∧ frunLength c = _ := by simpa using hc
    exact h.segment hp hb (dlog_frun hf)
  | trunc hp hm hc =>
    exact Dec.inv_of_not_busy rfl h.eng.discardOut h.workWf nofun (fun _ => ⟨rfl, rfl, rfl⟩) nofun
  | unneg hp =>
    obtain ⟨hcur, hlen⟩ := h.pre hp
    have herr := h.err_eq_false (by simp [hp])
    have hwork := Memory.readSeq?_writeSeq d.work 0 (neg4 d.inSeq)
    rw [neg4_length, Dec.inSeq_length] at hwork
    refine Dec.inv_of_scan (out := []) rfl h.eng (Memory.wf_writeSeq h.workWf _ _) (h.curLe (d.busy_iff.2 (.inl hp)))
      hwork ?_ ?_ herr (h.noErr herr)
    · simp [Engine.outSeq?, hlen, Memory.readSeq?]
    · simp [hcur, dlog]
  | finish hp hc =>
    have herr := h.err_eq_false (by simp [hp])
    exact Dec.inv_of_not_busy rfl h.eng h.workWf nofun (fun he => absurd he (by simp [herr])) h.noErr
  | start hb =>
    exact ⟨h.eng.start, h.workWf, fun _ => Nat.zero_le _, fun _ => ⟨rfl, rfl⟩, nofun, nofun, nofun, fun _ => rfl⟩

/-- Every move keeps DEC's invariant. -/
theorem DecMove.inv {i : Input} {d d' : Dec} (hm : DecMove i d d') (h : d.Inv) : d'.Inv := by
  cases hm with
  | stay => exact h
  | turn ht =>
    cases ht with
    | wait => exact h
    | run _ hs => exact hs.inv h
  | writeIn k b hb => exact Dec.inv_of_not_busy hb (h.eng.writeIn k b) h.workWf h.idle h.err h.noErr
  | writeInLen n hb => exact Dec.inv_of_not_busy hb (h.eng.writeInLen n) h.workWf h.idle h.err h.noErr
  | start _ hs => exact hs.inv h
  | reset =>
    exact Dec.inv_of_not_busy rfl (Engine.inv_resetEvent _) .nil (fun _ => ⟨rfl, rfl⟩) nofun fun _ => rfl

end Sys2Proof.Machine

namespace Sys2Proof.Proofs

open Sys2Proof.Machine

/-- Settles O36: a step is a move of each engine, and each engine's moves keep its invariant. -/
theorem stepKeepsInvariant : Obligations.StepKeepsInvariant := by
  intro s t hs h
  obtain ⟨he, hd⟩ := step_moves h
  exact ⟨he.inv hs.enc, hd.inv hs.dec⟩

/-- Settles O35: neither engine is BUSY, no output is promised and ERR is 0. -/
theorem resetSatisfiesInvariant : Obligations.ResetSatisfiesInvariant :=
  ⟨Enc.inv_of_not_busy rfl Engine.inv_reset fun _ => ⟨rfl, rfl⟩,
    Dec.inv_of_not_busy rfl Engine.inv_reset .nil (fun _ => ⟨rfl, rfl⟩) nofun fun _ => rfl⟩

end Sys2Proof.Proofs
end

section
/-! PROOFS. The state of the two engines, continued: ERR, CUR, the finished result, and what the host reads. -/

namespace Sys2Proof.Machine

/-! ## ERR -/

/-- Only D.TRUNC sets ERR and only DEC.START clears it (R80, R91, R126). -/
theorem DecStep.err_cases {i : Instr} {d d' : Dec} (hs : DecStep i d d') :
    d'.err = d.err ∨ (i = .trunc ∧ d'.err = true) ∨ (i = .decStart ∧ d'.err = false) := by
  cases hs with
  | lit | zrun | frun | unneg | finish => exact .inl rfl
  | trunc => exact .inr (.inl ⟨rfl, rfl⟩)
  | start => exact .inr (.inr ⟨rfl, rfl⟩)

/-- A turn of DEC changes ERR only by setting it, in D.TRUNC: the engine never selects a START itself. -/
theorem DecTurn.err_cases {d d' : Dec} (ht : DecTurn d d') :
    d'.err = d.err ∨ (d.select = .run .trunc ∧ d'.err = true) := by
  cases ht with
  | wait => exact .inl rfl
  | run hs h =>
    rcases h.err_cases with he | ⟨rfl, he⟩ | ⟨rfl, -⟩
    · exact .inl he
    · exact .inr ⟨hs, he⟩
    · cases (Dec.select_engine hs).2

/-- What a move can do to ERR (R18, R126). -/
theorem DecMove.err_cases {i : Input} {d d' : Dec} (hm : DecMove i d d') :
    d'.err = d.err ∨ (i = .tick .dec ∧ d.select = .run .trunc ∧ d'.err = true) ∨
      (((∃ v : Byte, v.getLsbD 0 = true ∧ i = .host (.writeCtrl .dec v)) ∨ i = .host (.reset .dec)) ∧
        d'.err = false) := by
  cases hm with
  | stay | writeIn | writeInLen => exact .inl rfl
  | turn ht => exact ht.err_cases.imp_right fun h => .inl ⟨rfl, h⟩
  | start hv hs =>
    cases hs
    exact .inr (.inr ⟨.inl ⟨_, hv, rfl⟩, rfl⟩)
  | reset => exact .inr (.inr ⟨.inr rfl, rfl⟩)

/-! ## CUR -/

/-- No instruction of ENC but its START moves CUR back (R13). -/
theorem EncStep.cur_le {i : Instr} {e e' : Enc} (hs : EncStep i e e') (hi : i.isCommand = false) :
    e.eng.cur ≤ e'.eng.cur := by
  cases hs with
  | scan => exact Nat.le_add_right _ _
  | endscan | neg => exact Nat.le_refl _
  | start => cases hi

/-- No instruction of DEC but its START moves CUR back (R13). -/
theorem DecStep.cur_le {i : Instr} {d d' : Dec} (hs : DecStep i d d') (hi : i.isCommand = false) :
    d.eng.cur ≤ d'.eng.cur := by
  cases hs with
  | lit | zrun | frun => exact Nat.le_add_right _ _
  | trunc | unneg | finish => exact Nat.le_refl _
  | start => cases hi

theorem EncTurn.cur_le {e e' : Enc} (ht : EncTurn e e') : e.eng.cur ≤ e'.eng.cur := by
  cases ht with
  | wait => exact Nat.le_refl _
  | run hs h => exact h.cur_le (Enc.select_engine hs).2

theorem DecTurn.cur_le {d d' : Dec} (ht : DecTurn d d') : d.eng.cur ≤ d'.eng.cur := by
  cases ht with
  | wait => exact Nat.le_refl _
  | run hs h => exact h.cur_le (Dec.select_engine hs).2

theorem EncMove.start_or_reset_of_cur_lt {i : Input} {e e' : Enc} (hm : EncMove i e e') (h : e'.eng.cur < e.eng.cur) :
    (∃ v : Byte, v.getLsbD 0 = true ∧ i = .host (.writeCtrl .enc v)) ∨ i = .host (.reset .enc) := by
  cases hm with
  | stay | writeIn | writeInLen => exact absurd h (Nat.lt_irrefl _)
  | turn ht => exact absurd h (Nat.not_lt.2 ht.cur_le)
  | start hv => exact .inl ⟨_, hv, rfl⟩
  | reset => exact .inr rfl

theorem DecMove.start_or_reset_of_cur_lt {i : Input} {d d' : Dec} (hm : DecMove i d d') (h : d'.eng.cur < d.eng.cur) :
    (∃ v : Byte, v.getLsbD 0 = true ∧ i = .host (.writeCtrl .dec v)) ∨ i = .host (.reset .dec) := by
  cases hm with
  | stay | writeIn | writeInLen => exact absurd h (Nat.lt_irrefl _)
  | turn ht => exact absurd h (Nat.not_lt.2 ht.cur_le)
  | start hv => exact .inl ⟨_, hv, rfl⟩
  | reset => exact .inr rfl

/-- A 0xFF-run production passes its trigger and 1 to 32 bytes (R13, R64). -/
theorem classify_frun_range {b : List Byte} {i f : Nat} (h : classify b i = some (.frun f)) : 1 ≤ f ∧ f ≤ 32 := by
  obtain ⟨-, h1, rfl⟩ := classify_frun_iff.1 h
  exact ⟨frun_pos h1, frun_le _ _⟩

/-! ## The result -/

theorem result_enc_of_done {s : State} {out : List Byte} (hp : s.enc.phase = .done)
    (ho : s.enc.eng.outSeq? = some out) : result .enc s = some (.ok out) := by
  simp [result, hp, ho]

theorem result_dec_of_done {s : State} {out : List Byte} (hp : s.dec.phase = .done) (he : s.dec.err = false)
    (ho : s.dec.eng.outSeq? = some out) : result .dec s = some (.ok out) := by
  simp [result, hp, he, ho]

theorem result_dec_of_err {s : State} (hp : s.dec.phase = .done) (he : s.dec.err = true) :
    result .dec s = some (.error s.dec.cause) := by
  simp [result, hp, he]

/-! ## STATUS -/

theorem statusByte_bits (busy done err : Bool) :
    (statusByte busy done err).getLsbD 0 = busy ∧ (statusByte busy done err).getLsbD 1 = done ∧
      (statusByte busy done err).getLsbD 2 = err ∧ statusByte busy done err >>> 3 = 0 := by
  revert busy done err
  decide

/-- The four parts of STATUS (R18). -/
theorem readStatus_bits (e : EngineId) (s : State) :
    (readStatus e s).getLsbD 0 = s.busy e ∧ (readStatus e s).getLsbD 1 = s.done e ∧
      (readStatus e s).getLsbD 2 = s.err e ∧ readStatus e s >>> 3 = 0 :=
  statusByte_bits _ _ _

/-- PHASE is one value, so BUSY and DONE exclude each other (R17, R18). -/
theorem State.not_busy_of_done {s : State} {e : EngineId} (h : s.done e = true) : s.busy e = false := by
  cases e with
  | enc =>
    have hp : s.enc.phase = .done := by simpa using h
    simp [Enc.busy, hp]
  | dec =>
    have hp : s.dec.phase = .done := by simpa using h
    simp [Dec.busy, hp]

end Sys2Proof.Machine

namespace Sys2Proof.Proofs

open Sys2Proof.Machine

/-- Settles O4, by what a move of DEC can do to ERR. -/
theorem errIsSetByTruncAndClearedByStartOrReset : Obligations.ErrIsSetByTruncAndClearedByStartOrReset := by
  intro s t h
  rcases (step_moves h).2.err_cases with he | ⟨hi, hs, he⟩ | ⟨hm, he⟩
  · exact ⟨fun h0 h1 => by simp [he, h0] at h1, fun h1 h0 => by simp [he, h1] at h0⟩
  · exact ⟨fun _ _ => ⟨hi, hs⟩, fun _ h0 => by simp [he] at h0⟩
  · exact ⟨fun _ h1 => by simp [he] at h1, fun _ _ => hm⟩

/-- Settles O40: a turn looks at its own engine alone, so each turn is still there after the other. -/
theorem engineStepsCommute : Obligations.EngineStepsCommute := by
  intro s t u ht hu
  obtain ⟨e, he, rfl⟩ := engineStep_enc_eq_next_iff.1 ht
  obtain ⟨d, hd, rfl⟩ := engineStep_dec_eq_next_iff.1 hu
  exact ⟨(s.setEnc e).setDec d, engineStep_dec_eq_next_iff.2 ⟨d, hd, rfl⟩,
    engineStep_enc_eq_next_iff.2 ⟨e, he, rfl⟩⟩

/-- Settles O42: by the moves of each engine, and by what each scan step answers. -/
theorem cursorOnlyMovesForward : Obligations.CursorOnlyMovesForward := by
  refine ⟨fun s t e h hlt => ?_, fun s t => ⟨?_, ?_, ?_, ?_, ?_, ?_, ?_⟩⟩
  · obtain ⟨he, hd⟩ := step_moves h
    cases e with
    | enc => exact he.start_or_reset_of_cur_lt hlt
    | dec => exact hd.start_or_reset_of_cur_lt hlt
  · intro b h
    obtain ⟨-, rfl⟩ := execELit_eq_next_iff.1 h
    rfl
  · intro z h
    obtain ⟨⟨-, hc⟩, rfl⟩ := execEZrun_eq_next_iff.1 h
    obtain ⟨h1, h2⟩ : 1 ≤ z ∧ z ≤ 128 := classify_width hc
    exact ⟨h1, h2, rfl⟩
  · intro f h
    obtain ⟨⟨-, hc⟩, rfl⟩ := execEFrun_eq_next_iff.1 h
    obtain ⟨h1, h2⟩ := classify_frun_range hc
    exact ⟨by omega, by omega, rfl⟩
  · intro b h
    obtain ⟨-, rfl⟩ := execLit_eq_next_iff.1 h
    rfl
  · intro n h
    obtain ⟨-, rfl⟩ := execZrun_eq_next_iff.1 h
    rfl
  · intro x n h
    obtain ⟨-, rfl⟩ := execFrun_eq_next_iff.1 h
    rfl
  · intro h
    obtain ⟨-, rfl⟩ := execTrunc_eq_next_iff.1 h
    rfl

/-- Settles O46: at the end of the input the invariant speaks of the whole input, and the last step negates the output
(E.NEG), keeps it (D.END), or finds the lone marker behind what decoded so far (D.TRUNC). -/
theorem lastStepLeavesTheResult : Obligations.LastStepLeavesTheResult := by
  intro s t hs
  refine ⟨fun h => ?_, fun h => ?_, fun h => ?_⟩
  · obtain ⟨hp, bs, hb, rfl⟩ := execENeg_eq_next_iff.1 h
    obtain ⟨-, ho⟩ := hs.enc.post hp
    exact result_enc_of_done rfl (Memory.readSeq?_negated ho hb)
  · obtain ⟨⟨hp, hc⟩, rfl⟩ := execDEnd_eq_next_iff.1 h
    obtain ⟨-, out, ho, hd⟩ := hs.dec.scan hp
    rw [List.take_of_length_le (by simp [hc])] at hd
    exact ⟨out, hd, result_dec_of_done rfl (hs.dec.err_eq_false (by simp [hp])) ho⟩
  · obtain ⟨⟨hp, hm, hc⟩, rfl⟩ := execTrunc_eq_next_iff.1 h
    obtain ⟨hw, out, -, hd⟩ := hs.dec.scan hp
    have hall : neg4 s.dec.inSeq = (neg4 s.dec.inSeq).take s.dec.eng.cur ++ [Config.marker] := by
      rw [← (Dec.bytesHere_of_byteAt? hm).take_eq hw, List.take_of_length_le (by simp [hc])]
    refine ⟨?_, result_dec_of_err rfl rfl⟩
    change dlog (neg4 s.dec.inSeq) = _
    rw [hall, dlog_append hd]
    rfl

/-- Settles O1, register by register. -/
theorem resetLeavesBothEnginesIdle : Obligations.ResetLeavesBothEnginesIdle := by
  refine ⟨rfl, rfl, fun e => ?_⟩
  cases e with
  | enc => exact ⟨rfl, rfl, rfl, rfl, rfl, rfl, fun k => if_neg (by simp [State.reset, Enc.reset])⟩
  | dec => exact ⟨rfl, rfl, rfl, rfl, rfl, rfl, fun k => if_neg (by simp [State.reset, Dec.reset])⟩

/-- Settles O3: the bits of STATUS are BUSY, DONE and ERR, which are functions of PHASE and the stored ERR. -/
theorem statusBitsFollowPhase : Obligations.StatusBitsFollowPhase := by
  intro s
  obtain ⟨e0, e1, e2, -⟩ := readStatus_bits .enc s
  obtain ⟨d0, d1, d2, -⟩ := readStatus_bits .dec s
  refine ⟨e0 ▸ s.enc.busy_iff, d0 ▸ s.dec.busy_iff, e1 ▸ decide_eq_true_iff, d1 ▸ decide_eq_true_iff,
    e2, d2 ▸ Iff.rfl, fun e => ?_⟩
  obtain ⟨h0, h1, -, h3⟩ := readStatus_bits e s
  refine ⟨h3, fun ⟨hb, hd⟩ => ?_⟩
  rw [h0, State.not_busy_of_done (h1 ▸ hd)] at hb
  cases hb

/-- Settles O25, by the two equations of a CTRL write. -/
theorem ctrlWriteIsStartByBitZero : Obligations.CtrlWriteIsStartByBitZero :=
  fun s v => ⟨hostMove_writeCtrl_enc v s, hostMove_writeCtrl_dec v s, fun _ => rfl⟩

end Sys2Proof.Proofs
end

section
/-! PROOFS. The buffers of an engine (20_memory.md): no instruction writes the input (R31). -/

namespace Sys2Proof.Machine

/-- Two states of an engine hold the same input: IN, IN_LEN, and the epoch that fixes the bytes never written. -/
structure Engine.SameInput (e e' : Engine) : Prop where
  inBuf : e'.inBuf = e.inBuf
  inLen : e'.inLen = e.inLen
  epoch : e'.epoch = e.epoch

theorem Engine.SameInput.refl (e : Engine) : e.SameInput e := ⟨rfl, rfl, rfl⟩

theorem Engine.SameInput.inSeq_eq {e e' : Engine} (h : e.SameInput e') (free : Nat → Nat → Byte) :
    e'.inSeq free = e.inSeq free :=
  Engine.inSeq_congr h.inBuf h.inLen h.epoch

/-- ENC writes only PHASE, OUT, OUT_LEN and CUR: its steps read IN and never store to it (R31). -/
theorem EncStep.sameInput {i : Instr} {e e' : Enc} (hs : EncStep i e e') : e.eng.SameInput e'.eng := by
  cases hs with
  | scan | neg | start => exact ⟨rfl, rfl, rfl⟩
  | endscan => exact .refl _

/-- DEC un-negates and scans the copy in WORK: its steps never store to IN (R31). -/
theorem DecStep.sameInput {i : Instr} {d d' : Dec} (hs : DecStep i d d') : d.eng.SameInput d'.eng := by
  cases hs with
  | lit | zrun | frun | trunc | start => exact ⟨rfl, rfl, rfl⟩
  | unneg | finish => exact .refl _

/-- Whatever the instruction, both engines keep their input: its own by the engine's step, the other's by R2. -/
theorem exec_next_sameInput {i : Instr} {s t : State} (h : exec i s = .next t) (e : EngineId) :
    (s.eng e).SameInput (t.eng e) := by
  cases hi : i.engine with
  | enc =>
    obtain ⟨c, hc, rfl⟩ := (exec_enc_eq_next_iff hi).1 h
    cases e with
    | enc => exact hc.sameInput
    | dec => exact .refl _
  | dec =>
    obtain ⟨d, hd, rfl⟩ := (exec_dec_eq_next_iff hi).1 h
    cases e with
    | enc => exact .refl _
    | dec => exact hd.sameInput

end Sys2Proof.Machine

namespace Sys2Proof.Proofs

open Sys2Proof.Machine

/-- Settles O41: both engines keep IN, IN_LEN and the epoch, and the byte sequences depend on nothing else. -/
theorem noInstructionWritesInput : Obligations.NoInstructionWritesInput := by
  intro i s t h e
  have hin := exec_next_sameInput h
  exact ⟨(hin e).inBuf, (hin e).inLen, (hin .enc).inSeq_eq _, (hin .dec).inSeq_eq _⟩

end Sys2Proof.Proofs
end

section
/-! PROOFS. Encoding (30_encoding.md): decoding a segment's bytes, the segmentation of a byte sequence (R46, R53 to
R55), and the streams the encoder makes (R57). -/

namespace Sys2Proof

/-! ## The control byte's map (R54) -/

theorem isFrunControl_eq_decide (c : Byte) : isFrunControl c = decide (128 ≤ c.toNat) := by
  revert c
  decide

theorem zrunLength_eq {c : Byte} (h : c.toNat < 128) : zrunLength c = c.toNat + 1 := by
  revert c
  decide

theorem frunLength_eq (c : Byte) : frunLength c = c.toNat % 32 + 1 := by
  revert c
  decide

theorem decodeDescriptor_of_lt {c : Byte} (h : c.toNat < 128) : decodeDescriptor c = .zrun (c.toNat + 1) := by
  have hc : isFrunControl c = false := by
    rw [isFrunControl_eq_decide]
    exact decide_eq_false (by omega)
  simp [decodeDescriptor, hc, zrunLength_eq h]

/-- The 32 control bytes with bits 6:5 equal to `x` are one row of R54. -/
theorem decodeDescriptor_of_row {c : Byte} (x : BitVec 2) (lo : 128 + 32 * x.toNat ≤ c.toNat)
    (hi : c.toNat < 160 + 32 * x.toNat) : decodeDescriptor c = .frun x (frunLength c) := by
  have hc : isFrunControl c = true := by
    rw [isFrunControl_eq_decide]
    exact decide_eq_true (by omega)
  have hx : frunUnused c = x := by
    refine BitVec.eq_of_toNat_eq ?_
    rw [frunUnused, BitVec.extractLsb'_toNat, Nat.shiftRight_eq_div_pow]
    omega
  simp [decodeDescriptor, hc, hx]

/-! ## Segments that have bytes -/

/-- A segment other than TRUNC is read back from its bytes, whatever follows them (R53). -/
theorem decode_encode_append {i : Instr} {bs : List Byte} (hi : i.wf = true) (ht : i ≠ .trunc)
    (he : encode i = some (.stream, bs)) (rest : List Byte) : decode (bs ++ rest) = .ok (i, rest) := by
  cases i with
  | lit b =>
    cases he
    exact decode_literal (wf_lit_iff.1 hi) rest
  | zrun n =>
    cases he
    obtain ⟨h1, h2⟩ := wf_zrun_iff.1 hi
    rw [List.cons_append, List.singleton_append, decode_descriptor, decodeDescriptor_zrunControl h1 h2]
  | frun x n =>
    cases he
    obtain ⟨h1, h2⟩ := wf_frun_iff.1 hi
    rw [List.cons_append, List.singleton_append, decode_descriptor, decodeDescriptor_frunControl x h1 h2]
  | trunc => exact absurd rfl ht
  | eLit | eZrun | eFrun | eEndscan | eNeg | dUnneg | dEnd | encStart | decStart => cases he

/-- The segmentation is decoding, again and again (R53). -/
theorem segments_of_decode {s rest : List Byte} {i : Instr} (h : decode s = .ok (i, rest)) :
    segments s = i :: segments rest := by
  induction s using stream_induction with
  | nil => cases h
  | trunc =>
    cases h
    rfl
  | literal b s hb _ =>
    rw [decode_literal hb] at h
    cases h
    exact segments_literal hb _
  | descriptor c s _ =>
    rw [decode_descriptor] at h
    cases h
    exact segments_descriptor c _

/-- The bytes of well-formed segments, in front of anything, are segmented into them (R46). -/
theorem segments_encodeStream_append {is : List Instr}
    (h : ∀ i ∈ is, i.wf = true ∧ i ≠ .trunc ∧ ∃ bs, encode i = some (.stream, bs)) (t : List Byte) :
    segments (encodeStream is ++ t) = is ++ segments t := by
  induction is with
  | nil => rfl
  | cons i is ih =>
    obtain ⟨⟨hi, ht, bs, he⟩, his⟩ := List.forall_mem_cons.1 h
    rw [encodeStream_cons he, List.append_assoc, segments_of_decode (decode_encode_append hi ht he _), ih his]
    rfl

/-- Writing a byte sequence's segments gives the sequence back (R53). -/
theorem encodeStream_segments (s : List Byte) : encodeStream (segments s) = s := by
  induction s using stream_induction with
  | nil => rfl
  | trunc => rfl
  | literal b rest hb ih => rw [segments_literal hb, encodeStream_cons rfl, ih, List.singleton_append]
  | descriptor c rest ih =>
    rw [segments_descriptor, encodeStream_cons (encode_decodeDescriptor c), ih]
    rfl

theorem decodeDescriptor_ne_trunc (c : Byte) : decodeDescriptor c ≠ .trunc := by
  rcases decodeDescriptor_cases c with ⟨-, h⟩ | ⟨-, h⟩ <;> rw [h] <;> exact nofun

/-- A segmentation holds well-formed segments that have bytes in the stream. -/
theorem wf_and_encode_of_mem_segments {s : List Byte} {i : Instr} (h : i ∈ segments s) :
    i.wf = true ∧ ∃ bs, encode i = some (.stream, bs) := by
  induction s using stream_induction with
  | nil => cases h
  | trunc =>
    obtain rfl := List.mem_singleton.1 h
    exact ⟨rfl, _, rfl⟩
  | literal b rest hb ih =>
    rw [segments_literal hb, List.mem_cons] at h
    rcases h with rfl | h
    · exact ⟨wf_lit_iff.2 hb, _, rfl⟩
    · exact ih h
  | descriptor c rest ih =>
    rw [segments_descriptor, List.mem_cons] at h
    rcases h with rfl | h
    · exact ⟨decodeDescriptor_wf c, _, encode_decodeDescriptor c⟩
    · exact ih h

/-- One segment further, TRUNC can still be only the last. -/
theorem trunc_last_cons {i : Instr} {l : List Instr} (hi : i ≠ .trunc)
    (ih : ∀ is js, l = is ++ Instr.trunc :: js → js = []) (is js : List Instr)
    (h : i :: l = is ++ Instr.trunc :: js) : js = [] := by
  cases is with
  | nil =>
    cases h
    exact absurd rfl hi
  | cons i' is =>
    obtain ⟨-, hl⟩ := List.cons.inj h
    exact ih is js hl

/-- A lone marker ends the sequence (R55 (a)). -/
theorem segments_trunc_last (s : List Byte) : ∀ is js, segments s = is ++ Instr.trunc :: js → js = [] := by
  induction s using stream_induction with
  | nil => simp
  | trunc =>
    intro is js h
    have hl := congrArg List.length h
    simp only [segments_lone_marker, List.length_append, List.length_cons, List.length_nil] at hl
    exact List.eq_nil_of_length_eq_zero (by omega)
  | literal b rest hb ih =>
    rw [segments_literal hb]
    exact trunc_last_cons nofun ih
  | descriptor c rest ih =>
    rw [segments_descriptor]
    exact trunc_last_cons (decodeDescriptor_ne_trunc c) ih

end Sys2Proof

namespace Sys2Proof.Machine

/-! ## The segment a production emits -/

/-- The segment whose bytes a production emits (R62 to R64); `encode_segment` ties it to `LookAhead.emits`. -/
def LookAhead.segment : LookAhead → Instr
  | .literal b => .lit b
  | .zrun z => .zrun z
  | .frun f => .frun 0 f

theorem LookAhead.encode_segment (la : LookAhead) : encode la.segment = some (.stream, la.emits) := by
  cases la <;> rfl

theorem LookAhead.segment_ne_trunc (la : LookAhead) : la.segment ≠ .trunc := by
  cases la <;> exact nofun

theorem LookAhead.canonicalSegment_segment (la : LookAhead) : canonicalSegment la.segment = true := by
  cases la <;> rfl

/-- R57 (a): but for TRUNC, the segments with bits 6:5 clear are those of productions. -/
theorem exists_segment_eq {i : Instr} {bs : List Byte} (he : encode i = some (.stream, bs)) (ht : i ≠ .trunc)
    (hc : canonicalSegment i = true) : ∃ la : LookAhead, la.segment = i := by
  cases i with
  | lit b => exact ⟨.literal b, rfl⟩
  | zrun n => exact ⟨.zrun n, rfl⟩
  | frun x n =>
    obtain rfl : x = 0 := eq_of_beq hc
    exact ⟨.frun n, rfl⟩
  | trunc => exact absurd rfl ht
  | eLit | eZrun | eFrun | eEndscan | eNeg | dUnneg | dEnd | encStart | decStart => cases he

theorem encodeStream_map_segment (las : List LookAhead) :
    encodeStream (las.map LookAhead.segment) = las.flatMap LookAhead.emits := by
  induction las with
  | nil => rfl
  | cons la las ih => rw [List.map_cons, encodeStream_cons la.encode_segment, ih, List.flatMap_cons]

/-! ## When the detector finds a production's raw bytes as that production -/

/-- A run in front of `rest` is counted whole exactly when the cap is not below it and nothing in `rest` prolongs it. -/
theorem countRun_replicate_append {v : Byte} {cap n : Nat} {rest : List Byte} :
    countRun v cap (List.replicate n v ++ rest) = n ↔ n ≤ cap ∧ (n = cap ∨ rest[0]? ≠ some v) := by
  have hall : ∀ k, k < n → (List.replicate n v ++ rest)[k]? = some v := fun k hk => by
    rw [List.getElem?_append_left (by simpa using hk), List.getElem?_replicate_of_lt hk]
  have hend : (List.replicate n v ++ rest)[n]? = rest[0]? := by
    rw [List.getElem?_append_right (by simp)]
    simp
  rw [countRun_eq_iff, hend]
  exact and_congr_right fun _ => and_iff_right hall

theorem classify_zero_eq_none_iff {s : List Byte} : classify s 0 = none ↔ s = [] := by
  rw [classify_eq_none_iff, Nat.le_zero, List.length_eq_zero_iff]

/-- R57 (c). -/
@[simp] theorem mayFollow_zrun_lit_iff {n : Nat} {b : Byte} :
    mayFollow (.zrun n) (.lit b) = true ↔ ¬ (n = 1 ∧ b = Config.fillF) := by
  simp [mayFollow, imp_iff_not_or]

/-- R57 (d). -/
@[simp] theorem mayFollow_frun_lit_iff {x : BitVec 2} {n : Nat} {b : Byte} :
    mayFollow (.frun x n) (.lit b) = true ↔ 32 ≤ n ∨ b ≠ Config.fillF := by
  simp [mayFollow]

/-- R57 (b), (c) after a ZRUN, said of the byte that comes next. -/
theorem mayFollow_zrun_iff {z : Nat} {rest : List Byte} :
    (∀ la ∈ classify rest 0, mayFollow (.zrun z) la.segment = true) ↔
      (128 ≤ z ∨ rest[0]? ≠ some Config.fillZ) ∧ ¬ (z = 1 ∧ rest[0]? = some Config.fillF) := by
  cases h : classify rest 0 with
  | none =>
    obtain rfl := classify_zero_eq_none_iff.1 h
    simp
  | some la =>
    cases la with
    | literal b =>
      obtain ⟨hb, hne⟩ := classify_literal_iff.1 h
      have hz : b ≠ Config.fillZ := hne
      simp [LookAhead.segment, hb, hz]
    | zrun n =>
      obtain ⟨hb, -⟩ := classify_zrun_iff.1 h
      simp [LookAhead.segment, mayFollow, hb, Config.marker, Config.fillZ, Config.fillF]
    | frun n =>
      obtain ⟨hb, -⟩ := classify_frun_iff.1 h
      simp [LookAhead.segment, mayFollow, hb, Config.marker, Config.fillZ, Config.fillF]

/-- R57 (d) after an FRUN, said of the byte that comes next. -/
theorem mayFollow_frun_iff {x : BitVec 2} {f : Nat} {rest : List Byte} :
    (∀ la ∈ classify rest 0, mayFollow (.frun x f) la.segment = true) ↔
      32 ≤ f ∨ rest[0]? ≠ some Config.fillF := by
  cases h : classify rest 0 with
  | none =>
    obtain rfl := classify_zero_eq_none_iff.1 h
    simp
  | some la =>
    cases la with
    | literal b =>
      obtain ⟨hb, -⟩ := classify_literal_iff.1 h
      simp [LookAhead.segment, hb]
    | zrun n =>
      obtain ⟨hb, -⟩ := classify_zrun_iff.1 h
      simp [LookAhead.segment, mayFollow, hb, Config.marker, Config.fillF]
    | frun n =>
      obtain ⟨hb, -⟩ := classify_frun_iff.1 h
      simp [LookAhead.segment, mayFollow, hb, Config.marker, Config.fillF]

theorem classify_zrun_append_iff {z : Nat} {rest : List Byte} (hz : 1 ≤ z) :
    classify (List.replicate z Config.fillZ ++ rest) 0 = some (.zrun z) ↔
      z ≤ 128 ∧ (z = 128 ∨ rest[0]? ≠ some Config.fillZ) ∧ ¬ (z = 1 ∧ rest[0]? = some Config.fillF) := by
  have hhead : (List.replicate z Config.fillZ ++ rest)[0]? = some Config.marker := by
    rw [List.getElem?_append_left (List.length_replicate.symm ▸ hz), List.getElem?_replicate_of_lt hz]
    rfl
  have hnext : (z = 1 ∧ (List.replicate z Config.fillZ ++ rest)[0 + 1]? = some Config.fillF) ↔
      (z = 1 ∧ rest[0]? = some Config.fillF) :=
    and_congr_right fun h => by subst h; simp
  have hcount : z = zrun (List.replicate z Config.fillZ ++ rest) 0 ↔
      z ≤ 128 ∧ (z = 128 ∨ rest[0]? ≠ some Config.fillZ) :=
    eq_comm.trans countRun_replicate_append
  rw [classify_zrun_iff, hnext, hcount, and_assoc]
  exact and_iff_right hhead

theorem classify_frun_append_iff {f : Nat} {rest : List Byte} (hf : 1 ≤ f) :
    classify (Config.fillZ :: List.replicate f Config.fillF ++ rest) 0 = some (.frun f) ↔
      f ≤ 32 ∧ (f = 32 ∨ rest[0]? ≠ some Config.fillF) := by
  have hnext : (Config.fillZ :: List.replicate f Config.fillF ++ rest)[0 + 1]? = some Config.fillF := by
    rw [List.cons_append, List.getElem?_cons_succ, List.getElem?_append_left (List.length_replicate.symm ▸ hf),
      List.getElem?_replicate_of_lt hf]
  have hcount : f = frun (Config.fillZ :: List.replicate f Config.fillF ++ rest) (0 + 1) ↔
      f ≤ 32 ∧ (f = 32 ∨ rest[0]? ≠ some Config.fillF) :=
    eq_comm.trans countRun_replicate_append
  rw [classify_frun_iff, hcount]
  exact (and_iff_right rfl).trans (and_iff_right hnext)

theorem segment_wf_of_classify {b : List Byte} {i : Nat} {la : LookAhead} (h : classify b i = some la) :
    la.segment.wf = true := by
  cases la with
  | literal x => exact wf_lit_iff.2 (classify_literal_iff.1 h).2
  | zrun z =>
    obtain ⟨h0, rfl, -⟩ := classify_zrun_iff.1 h
    exact wf_zrun_iff.2 ⟨zrun_pos h0, zrun_le _ _⟩
  | frun f =>
    obtain ⟨-, h1, rfl⟩ := classify_frun_iff.1 h
    exact wf_frun_iff.2 ⟨frun_pos h1, frun_le _ _⟩

/-- The one idea of R57: the detector reads a production's raw bytes as that production exactly when its segment is well
formed and the production after it may follow. -/
theorem classify_raw_append_iff {la : LookAhead} {rest : List Byte} :
    classify (la.raw ++ rest) 0 = some la ↔
      la.segment.wf = true ∧ ∀ la' ∈ classify rest 0, mayFollow la.segment la'.segment = true := by
  constructor
  · intro h
    have hwf := segment_wf_of_classify h
    refine ⟨hwf, ?_⟩
    cases la with
    | literal b => exact fun _ _ => rfl
    | zrun z =>
      obtain ⟨-, hstop, hF⟩ := (classify_zrun_append_iff (wf_zrun_iff.1 hwf).1).1 h
      exact mayFollow_zrun_iff.2 ⟨hstop.imp_left Eq.ge, hF⟩
    | frun f =>
      obtain ⟨-, hstop⟩ := (classify_frun_append_iff (wf_frun_iff.1 hwf).1).1 h
      exact mayFollow_frun_iff.2 (hstop.imp_left Eq.ge)
  · rintro ⟨hwf, hfollow⟩
    cases la with
    | literal b => exact classify_literal_iff.2 ⟨rfl, wf_lit_iff.1 hwf⟩
    | zrun z =>
      obtain ⟨h1, h2⟩ := wf_zrun_iff.1 hwf
      obtain ⟨hstop, hF⟩ := mayFollow_zrun_iff.1 hfollow
      exact (classify_zrun_append_iff h1).2 ⟨h2, hstop.imp_left h2.antisymm, hF⟩
    | frun f =>
      obtain ⟨h1, h2⟩ := wf_frun_iff.1 hwf
      exact (classify_frun_append_iff h1).2 ⟨h2, (mayFollow_frun_iff.1 hfollow).imp_left h2.antisymm⟩

/-! ## Lists of productions -/

theorem head?_productions (b : List Byte) : (productions b).head? = classify b 0 := by
  cases h : classify b 0 with
  | none =>
    obtain rfl := classify_zero_eq_none_iff.1 h
    rfl
  | some la => rw [productions_of_classify h, List.head?_cons]

theorem productions_raw_append_iff {la : LookAhead} {las : List LookAhead} {rest : List Byte} :
    productions (la.raw ++ rest) = la :: las ↔ classify (la.raw ++ rest) 0 = some la ∧ productions rest = las := by
  have hdrop : (la.raw ++ rest).drop la.width = rest := List.drop_left' la.raw_length
  constructor
  · intro h
    have hc : classify (la.raw ++ rest) 0 = some la := by rw [← head?_productions, h, List.head?_cons]
    rw [productions_of_classify hc, hdrop] at h
    exact ⟨hc, (List.cons.inj h).2⟩
  · rintro ⟨hc, rfl⟩
    rw [productions_of_classify hc, hdrop]

/-- A list of productions is what the encoder makes of its raw bytes exactly when its segments are well formed and each
may follow the one before it (R57 (b) to (d)). -/
theorem productions_flatMap_raw_iff {las : List LookAhead} :
    productions (las.flatMap LookAhead.raw) = las ↔
      (∀ i ∈ las.map LookAhead.segment, i.wf = true) ∧
        (las.map LookAhead.segment).IsChain fun i j => mayFollow i j := by
  induction las with
  | nil => simp
  | cons la las ih =>
    rw [List.flatMap_cons, productions_raw_append_iff, List.map_cons, List.forall_mem_cons, List.isChain_cons,
      List.head?_map]
    constructor
    · rintro ⟨hc, hlas⟩
      obtain ⟨hwf, hfollow⟩ := classify_raw_append_iff.1 hc
      obtain ⟨hwfs, hchain⟩ := ih.1 hlas
      rw [← head?_productions, hlas] at hfollow
      exact ⟨⟨hwf, hwfs⟩, by simpa using hfollow, hchain⟩
    · rintro ⟨⟨hwf, hwfs⟩, hfollow, hchain⟩
      have hlas := ih.2 ⟨hwfs, hchain⟩
      refine ⟨classify_raw_append_iff.2 ⟨hwf, ?_⟩, hlas⟩
      rw [← head?_productions, hlas]
      simpa using hfollow

/-- The encoder's logical output is segmented into its productions' segments. -/
theorem segments_elog (b : List Byte) : segments (elog b) = (productions b).map LookAhead.segment := by
  have hseg : ∀ i ∈ (productions b).map LookAhead.segment,
      i.wf = true ∧ i ≠ .trunc ∧ ∃ bs, encode i = some (.stream, bs) := by
    refine List.forall_mem_map.2 fun la hla => ?_
    obtain ⟨k, hk⟩ := production_classified hla
    exact ⟨segment_wf_of_classify hk, la.segment_ne_trunc, _, la.encode_segment⟩
  have h := segments_encodeStream_append hseg []
  rwa [encodeStream_map_segment, segments_nil, List.append_nil, List.append_nil] at h

/-- R108 (d): an encoder's output is one of the streams R57 describes. -/
theorem isCanonical_elog (b : List Byte) : isCanonical (elog b) := by
  have hprod : productions ((productions b).flatMap LookAhead.raw) = productions b := by rw [productions_raw]
  unfold isCanonical isStream
  rw [segments_elog]
  refine ⟨fun h => ?_, List.forall_mem_map.2 fun la _ => la.canonicalSegment_segment,
    (productions_flatMap_raw_iff.1 hprod).2⟩
  obtain ⟨la, -, hla⟩ := List.mem_map.1 h
  exact la.segment_ne_trunc hla

/-- The segments of a stream R57 describes are those of a list of productions. -/
theorem isCanonical.exists_map_segment {s : List Byte} (h : isCanonical s) :
    ∃ las : List LookAhead, las.map LookAhead.segment = segments s := by
  obtain ⟨hstream, hcanon, -⟩ := h
  have hall : ∀ i ∈ segments s, i ∈ Set.range LookAhead.segment := fun i hi => by
    obtain ⟨-, bs, he⟩ := wf_and_encode_of_mem_segments hi
    exact exists_segment_eq he (fun ht => hstream (ht ▸ hi)) (hcanon i hi)
  exact (Set.range_list_map LookAhead.segment).ge hall

/-- A stream R57 describes is the encoding of its segments' raw bytes. -/
theorem isCanonical.exists_elog_eq {s : List Byte} (h : isCanonical s) : ∃ b, elog b = s := by
  obtain ⟨las, hlas⟩ := h.exists_map_segment
  obtain ⟨-, -, hchain⟩ := h
  have hprod : productions (las.flatMap LookAhead.raw) = las := by
    refine productions_flatMap_raw_iff.2 ?_
    rw [hlas]
    exact ⟨fun i hi => (wf_and_encode_of_mem_segments hi).1, hchain⟩
  refine ⟨las.flatMap LookAhead.raw, ?_⟩
  rw [elog, hprod, ← encodeStream_map_segment, hlas, encodeStream_segments]

/-! ## The step of a scanning DEC -/

theorem engineStep_of_select {s : State} {e : EngineId} {i : Instr} (h : s.select e = .run i) :
    engineStep e s = exec i s := by
  simp [engineStep, h]

end Sys2Proof.Machine

namespace Sys2Proof.Proofs

open Sys2Proof.Machine

/-- Settles O32: a segment by `decode_encode_append`, TRUNC and the commands by evaluation. -/
theorem decodeOfEncodeIsIdentity : Obligations.DecodeOfEncodeIsIdentity := by
  intro i hi p bs he
  refine ⟨?_, ?_⟩
  · cases p with
    | stream =>
      by_cases ht : i = .trunc
      · subst ht
        cases he
        rfl
      · have h := decode_encode_append hi ht he []
        rw [List.append_nil] at h
        simp [decodeAt, h]
    | ctrl e =>
      cases i with
      | encStart | decStart =>
        cases he
        rfl
      | lit | zrun | frun | trunc | eLit | eZrun | eFrun | eEndscan | eNeg | dUnneg | dEnd => cases he
  · rintro rfl ht rest
    exact decode_encode_append hi ht he rest

/-- Settles O55: the encoder's segments are its productions', and a list of productions is one that the detector finds
exactly when R57 (b) to (d) hold of it (`productions_flatMap_raw_iff`). -/
theorem encoderOutputsAreTheCanonicalStreams : Obligations.EncoderOutputsAreTheCanonicalStreams :=
  fun _ => ⟨fun ⟨b, hb⟩ => hb ▸ isCanonical_elog b, isCanonical.exists_elog_eq⟩

/-- Settles O33, by induction on the segments, in front of nothing and of a lone marker. -/
theorem streamsSegmentUniquely : Obligations.StreamsSegmentUniquely := by
  intro is h
  refine ⟨?_, segments_encodeStream_append h [Config.marker]⟩
  simpa using segments_encodeStream_append h []

/-- Settles O34, by induction over the sequence by its segments. -/
theorem everyByteSequenceIsItsSegmentation : Obligations.EveryByteSequenceIsItsSegmentation :=
  fun s => ⟨encodeStream_segments s, fun _ hi => (wf_and_encode_of_mem_segments hi).1, segments_trunc_last s⟩

/-- Settles O27: DEC selects the segment it decodes, whoever's move the agenda says it is. -/
theorem stepRunsDecodedSegment : Obligations.StepRunsDecodedSegment := by
  intro s bs rest i hp hc hw hd _
  have hsel : s.dec.select = .run i := Dec.select_scan hp hc.ne hw hd
  refine ⟨fun more ha => ?_, fun ha hb => ?_⟩
  · rw [step_of_agenda ha]
    exact engineStep_of_select (e := .dec) hsel
  · have hturn : s.defaultEngine = .dec := by simp [State.defaultEngine, hb]
    rw [step_of_no_agenda ha, hturn]
    exact engineStep_of_select hsel

/-- Settles O30: every word is evaluated. -/
theorem writtenOutWordsDecode : Obligations.WrittenOutWordsDecode :=
  ⟨rfl, rfl, rfl, rfl, rfl, rfl, rfl, rfl, rfl, rfl, rfl, rfl, rfl, rfl, rfl, rfl⟩

/-- Settles O31, row by row: ZRUN below 80, and one row of 32 FRUN control bytes for each value of bits 6:5. -/
theorem controlByteMapIsComplete : Obligations.ControlByteMapIsComplete := by
  intro c
  have hlt : c.toNat < 256 := c.isLt
  refine ⟨fun h => decodeDescriptor_of_lt (by omega), fun lo hi => ?_, fun lo hi => ?_, fun lo hi => ?_, fun lo => ?_,
    decodeDescriptor_wf c⟩
  · have hlen : c.toNat % 32 = c.toNat - 0x80 := by omega
    rw [decodeDescriptor_of_row 0 (by simpa using lo) (by simp; omega), frunLength_eq, hlen]
  · exact decodeDescriptor_of_row 1 (by simpa using lo) (by simp; omega)
  · exact decodeDescriptor_of_row 2 (by simpa using lo) (by simp; omega)
  · exact decodeDescriptor_of_row 3 (by simpa using lo) (by simp; omega)

end Sys2Proof.Proofs
end

section
/-! PROOFS. The encoder (40_encoder.md): what each of its steps does, when it is enabled, and which step is its next. -/

namespace Sys2Proof.Machine

/-! ## Control bytes of the generator (R48, R49) -/

theorem zrunControl_toNat {z : Nat} (h : z ≤ 128) : (zrunControl z).toNat = z - 1 := by
  rw [zrunControl, BitVec.toNat_ofNat]
  omega

/-- A 0x00-run's control byte has bit 7 clear. -/
theorem zrunControl_getLsbD_seven {z : Nat} (h : z ≤ 128) : (zrunControl z).getLsbD 7 = false := by
  refine Nat.testBit_lt_two_pow ?_
  rw [zrunControl_toNat h]
  omega

theorem frunControl_zero (f : Nat) : frunControl 0 f = 0x80 ||| BitVec.ofNat 8 (f - 1) := by
  simp [frunControl, Config.typeBit]

/-- The generator leaves bits 6:5 of a 0xFF-run's control byte zero (U2), and the length less one below them. -/
theorem frunControl_zero_fields {f : Nat} (h1 : 1 ≤ f) (h2 : f ≤ 32) :
    frunControl 0 f &&& 0x60 = 0 ∧ (frunControl 0 f).toNat = 0x80 + (f - 1) := by
  have h : ∀ k < 32, frunControl 0 (k + 1) &&& 0x60 = 0 ∧ (frunControl 0 (k + 1)).toNat = 0x80 + k := by decide
  simpa [Nat.sub_add_cancel h1] using h (f - 1) (by omega)

/-! ## One scan step, for whatever production is found (R62 to R64) -/

theorem exec_production_eq_next_iff {la : LookAhead} {s t : State} :
    exec la.instr s = .next t ↔
      (s.enc.phase = .scan ∧ classify s.enc.inSeq s.enc.eng.cur = some la) ∧
        t = s.setEnc { s.enc with eng := (s.enc.eng.emit la.emits).advance la.width } :=
  exec_instr_of_lookAhead la s ▸ encScan_eq_next_iff

theorem exists_exec_production_iff {la : LookAhead} {s : State} :
    (∃ t, exec la.instr s = .next t) ↔ s.enc.phase = .scan ∧ classify s.enc.inSeq s.enc.eng.cur = some la := by
  simp only [exec_production_eq_next_iff, exists_and_left, exists_eq, and_true]

/-- The production found at the cursor is taken: its bytes are appended, and what it consumes is passed, all of it
below `IN_LEN` (R70). -/
theorem exec_production {la : LookAhead} {s : State} (hp : s.enc.phase = .scan)
    (hc : classify s.enc.inSeq s.enc.eng.cur = some la) :
    ∃ t, exec la.instr s = .next t ∧ t.enc.eng.outSeq? = s.enc.eng.outSeq?.map (· ++ la.emits) ∧
      t.enc.eng.outLen = s.enc.eng.outLen + la.emits.length ∧ t.enc.eng.cur = s.enc.eng.cur + la.width ∧
      t.enc.eng.cur ≤ t.enc.eng.inLen ∧ t.status .enc = s.status .enc := by
  refine ⟨_, exec_production_eq_next_iff.2 ⟨⟨hp, hc⟩, rfl⟩, Engine.emit_outSeq? _ _, rfl, rfl, ?_,
    State.status_enc_congr rfl⟩
  simpa using classify_bound hc

/-- What taking a production leaves as it was (R31, R34). -/
theorem exec_production_frame {la : LookAhead} {s t : State} (h : exec la.instr s = .next t) :
    t.dec = s.dec ∧ t.agenda = s.agenda ∧ t.enc.phase = s.enc.phase ∧ t.enc.eng.inBuf = s.enc.eng.inBuf ∧
      t.enc.eng.inLen = s.enc.eng.inLen ∧ t.enc.eng.epoch = s.enc.eng.epoch ∧ t.status .enc = s.status .enc ∧
      t.cause .enc = s.cause .enc ∧
      ∀ a, ¬ (s.enc.eng.outLen ≤ a ∧ a < s.enc.eng.outLen + la.emits.length) →
        t.enc.eng.outBuf.read? a = s.enc.eng.outBuf.read? a := by
  obtain ⟨-, rfl⟩ := exec_production_eq_next_iff.1 h
  exact ⟨rfl, rfl, rfl, rfl, rfl, rfl, State.status_enc_congr rfl, rfl, fun _ => Memory.read?_writeSeq_of_outside⟩

/-! ## The header negation in place (R66) -/

/-- The header window can be read exactly when its bytes were written. -/
theorem exists_headerWindow_iff {e : Engine} :
    (∃ bs, e.outBuf.readSeq? 0 (min Config.hdr e.outLen) = some bs) ↔
      ∀ k, k < min 4 e.outLen → e.outBuf.read? k ≠ none := by
  simpa only [Nat.zero_add, Config.hdr] using
    Memory.readSeq?_isSome_iff (m := e.outBuf) (k := 0) (n := min Config.hdr e.outLen)

/-- An output that can be read has a header window that can be read. -/
theorem exists_headerWindow {e : Engine} {out : List Byte} (h : e.outSeq? = some out) :
    ∃ bs, e.outBuf.readSeq? 0 (min Config.hdr e.outLen) = some bs :=
  ⟨_, Memory.readSeq?_sub h (by omega)⟩

theorem exists_exec_eNeg_iff {s : State} :
    (∃ t, exec .eNeg s = .next t) ↔
      s.enc.phase = .post ∧ ∀ k, k < min 4 s.enc.eng.outLen → s.enc.eng.outBuf.read? k ≠ none := by
  rw [← exists_headerWindow_iff]
  constructor
  · rintro ⟨t, h⟩
    obtain ⟨hp, bs, hb, -⟩ := execENeg_eq_next_iff.1 h
    exact ⟨hp, bs, hb⟩
  · rintro ⟨hp, bs, hb⟩
    exact ⟨_, execENeg_eq_next_iff.2 ⟨hp, bs, hb, rfl⟩⟩

/-- Rewriting the bytes just read, each changed by `f`: those bytes read as changed, and all others as before. -/
theorem Memory.read?_writeSeq_map {m : Memory} {n : Nat} {bs : List Byte} (h : m.readSeq? 0 n = some bs)
    (f : Byte → Byte) (k : Nat) :
    (m.writeSeq 0 (bs.map f)).read? k = if k < n then (m.read? k).map f else m.read? k := by
  obtain ⟨hlen, hb⟩ := Memory.readSeq?_eq_some_iff.1 h
  rw [Memory.read?_writeSeq, List.length_map, hlen]
  by_cases hk : k < n
  · have hbk := hb k hk
    rw [Nat.zero_add] at hbk
    simp [hk, hbk]
  · simp [hk]

/-- Negating the header window negates the output as a sequence, also when some byte above the window was never
written and there is no such sequence. -/
theorem Memory.readSeq?_negated_eq {m : Memory} {n : Nat} {bs : List Byte}
    (hb : m.readSeq? 0 (min Config.hdr n) = some bs) :
    (m.writeSeq 0 (bs.map (· ^^^ Config.negMask))).readSeq? 0 n = (m.readSeq? 0 n).map neg4 := by
  cases h : m.readSeq? 0 n with
  | some out => exact Memory.readSeq?_negated h hb
  | none =>
    refine Option.eq_none_iff_forall_ne_some.2 fun out hout => ?_
    have hall : ∀ j, j < n → m.read? (0 + j) ≠ none := fun j hj hn => by
      refine Memory.readSeq?_isSome_iff.1 ⟨out, hout⟩ j hj ?_
      rw [Memory.read?_writeSeq_map hb, hn]
      simp
    obtain ⟨out', hout'⟩ := Memory.readSeq?_isSome_iff.2 hall
    rw [h] at hout'
    cases hout'

/-! ## Which step a turn runs (R69, R85) -/

theorem State.select_enc (s : State) : s.select .enc = s.enc.select := rfl

theorem State.select_dec (s : State) : s.select .dec = s.dec.select := rfl

theorem State.select_with_agenda (s : State) (more : List Input) (e : EngineId) :
    State.select { s with agenda := more } e = s.select e := by
  cases e <;> rfl

/-- An engine's turn, first on the agenda, runs the step it selects. -/
theorem step_of_tick_run {s : State} {e : EngineId} {i : Instr} {more : List Input}
    (ha : s.agenda = .tick e :: more) (hs : s.select e = .run i) : step s = exec i { s with agenda := more } := by
  rw [step_of_agenda ha]
  exact engineStep_of_select ((s.select_with_agenda more e).trans hs)

theorem engineStep_of_waiting {s : State} {e : EngineId} (h : s.select e = .waiting) : engineStep e s = .next s :=
  engineStep_eq_next_iff.2 (.inl ⟨h, rfl⟩)

/-- The turn of an engine that waits for the host changes nothing (R17, R130). -/
theorem step_of_tick_waiting {s : State} {e : EngineId} {more : List Input} (ha : s.agenda = .tick e :: more)
    (hs : s.select e = .waiting) : step s = .next { s with agenda := more } := by
  rw [step_of_agenda ha]
  exact engineStep_of_waiting ((s.select_with_agenda more e).trans hs)

end Sys2Proof.Machine

namespace Sys2Proof.Proofs

open Sys2Proof.Machine

/-- Settles O7: a byte other than the marker is a production. -/
theorem encoderEmitsLiteral : Obligations.EncoderEmitsLiteral := by
  intro s b hp hb hne
  obtain ⟨t, ht, hout, hlen, hcur, -, hst⟩ := exec_production hp (classify_literal_iff.2 ⟨hb, hne⟩)
  exact ⟨t, ht, hout, hlen, hcur, hst⟩

/-- Settles O8: the zero count is the production, unless the run is one zero with 0xFF after it. -/
theorem encoderEmitsZeroRun : Obligations.EncoderEmitsZeroRun := by
  intro s z hp hb hz hn
  have hc := classify_zrun_iff.2 ⟨hb, hz, hn⟩
  obtain ⟨h1, h2⟩ : 1 ≤ z ∧ z ≤ 128 := classify_width hc
  obtain ⟨t, ht, heff⟩ := exec_production hp hc
  exact ⟨h1, h2, t, zrunControl z, ht, zrunControl_toNat h2, zrunControl_getLsbD_seven h2, heff⟩

/-- Settles O9: the trigger and the counted bytes 0xFF are one production, with one descriptor. -/
theorem encoderEmitsFullRunAndConsumesTrigger : Obligations.EncoderEmitsFullRunAndConsumesTrigger := by
  intro s f hp h0 h1 hf
  have hc := classify_frun_iff.2 ⟨h0, h1, hf⟩
  obtain ⟨hf1, hf2⟩ := classify_frun_range hc
  obtain ⟨hbits, hval⟩ := frunControl_zero_fields hf1 hf2
  obtain ⟨t, ht, hout, hlen, hcur, hle, hst⟩ := exec_production hp hc
  exact ⟨hf1, hf2, t, frunControl 0 f, ht, frunControl_zero f, hbits, hval, hout, hlen,
    hcur.trans (Nat.add_assoc _ _ _).symm, hle, hst⟩

/-- Settles O11: the bytes of the window are read, inverted and written back where they stood. -/
theorem encoderNegatesHeaderWindow : Obligations.EncoderNegatesHeaderWindow := by
  intro s hp hw
  obtain ⟨bs, hbs⟩ := exists_headerWindow_iff.2 hw
  have hread := Memory.read?_writeSeq_map hbs (· ^^^ Config.negMask)
  exact ⟨_, execENeg_eq_next_iff.2 ⟨hp, bs, hbs, rfl⟩, rfl, State.status_enc _,
    fun k hk => (hread k).trans (if_pos hk), fun k hk => (hread k).trans (if_neg (Nat.not_lt.2 hk)),
    Memory.readSeq?_negated_eq hbs, rfl, rfl, rfl, rfl, rfl, rfl, rfl, rfl⟩

/-- Settles O12: the scan steps by the production found, the phase steps by their own rules. -/
theorem encoderStepEnabledExactlyWhen : Obligations.EncoderStepEnabledExactlyWhen := by
  intro s
  refine ⟨fun b => exists_exec_production_iff (la := .literal b), fun z => exists_exec_production_iff (la := .zrun z),
    fun f => exists_exec_production_iff (la := .frun f), ?_, exists_exec_eNeg_iff⟩
  exact ⟨fun ⟨_, h⟩ => (execEEndscan_eq_next_iff.1 h).1, fun h => ⟨_, execEEndscan_eq_next_iff.2 ⟨h, rfl⟩⟩⟩

/-- Settles O13: the three steps are one step, for the production's own bytes. -/
theorem encoderScanStepFrame : Obligations.EncoderScanStepFrame := by
  intro s t i n hi h
  obtain ⟨la, rfl, rfl⟩ : ∃ la : LookAhead, i = la.instr ∧ n = la.emits.length := by
    rcases hi with ⟨⟨b, rfl⟩, rfl⟩ | ⟨⟨z, rfl⟩, rfl⟩ | ⟨⟨f, rfl⟩, rfl⟩
    · exact ⟨.literal b, rfl, rfl⟩
    · exact ⟨.zrun z, rfl, rfl⟩
    · exact ⟨.frun f, rfl, rfl⟩
  exact exec_production_frame h

/-- Settles O10: E.ENDSCAN writes PHASE alone, and SCAN and POST are both BUSY. -/
theorem encoderEndsScanAtEndOfInput : Obligations.EncoderEndsScanAtEndOfInput := by
  intro s hp hc
  refine ⟨_, execEEndscan_eq_next_iff.2 ⟨⟨hp, hc⟩, rfl⟩, rfl, rfl, ?_, rfl, rfl⟩
  rw [State.status_enc, State.status_enc, hp]
  rfl

/-- Settles O28: ENC selects the production it finds, on its turn or, being BUSY, by default. -/
theorem stepRunsDetectedProduction : Obligations.StepRunsDetectedProduction := by
  intro s la hp hc
  have hsel : s.select .enc = .run la.instr := Enc.select_scan hp hc
  refine ⟨fun more ha => step_of_tick_run ha hsel, fun ha => ?_⟩
  have hturn : s.defaultEngine = .enc := if_pos (s.enc.busy_iff.2 (.inl hp))
  rw [step_of_no_agenda ha, hturn]
  exact engineStep_of_select hsel

/-- Settles O29: each clause is what PHASE and the end of the buffer make the mover select. -/
theorem stepRunsPhaseStepOrWaits : Obligations.StepRunsPhaseStepOrWaits := by
  intro s more
  refine ⟨fun ha => ⟨fun hp hc => ?_, fun hp => ?_, fun hb => ?_⟩,
    fun ha => ⟨fun hp => ?_, fun hp hc => ?_, fun hb => ?_⟩, fun m ha => step_of_agenda ha, fun ha he hd => ?_⟩
  · exact step_of_tick_run ha (Enc.select_scan_end hp hc)
  · exact step_of_tick_run ha (Enc.select_post hp)
  · exact step_of_tick_waiting ha (Enc.select_waiting hb)
  · exact step_of_tick_run ha (Dec.select_pre hp)
  · exact step_of_tick_run ha (Dec.select_scan_end hp hc)
  · exact step_of_tick_waiting ha (Dec.select_waiting hb)
  · have hturn : s.defaultEngine = .dec := by simp [State.defaultEngine, he]
    rw [step_of_no_agenda ha, hturn]
    exact engineStep_of_waiting ((State.select_dec s).trans (Dec.select_waiting hd))

end Sys2Proof.Proofs
end

section
/-! PROOFS. The encoder (40_encoder.md): an operation is a function call (R72, R95). The host's moves load the input,
and the engine's turns carry the output from production to production to the end. -/

namespace Sys2Proof.Machine

/-! ## Runs of steps -/

theorem stepN_succ_of_step {s t : State} (h : step s = .next t) (k : Nat) : stepN (k + 1) s = stepN k t := by
  simp [stepN, h]

/-- A run of steps goes on from where a shorter one ends. -/
theorem stepN_add {a : Nat} {s t : State} (h : stepN a s = .next t) (k : Nat) : stepN (a + k) s = stepN k t := by
  induction a generalizing s with
  | zero =>
    obtain rfl : s = t := by simpa [stepN] using h
    rw [Nat.zero_add]
  | succ a ih =>
    rw [Nat.add_right_comm]
    cases hs : step s with
    | next u =>
      rw [stepN_succ_of_step hs] at h ⊢
      exact ih h
    | fault f => simp [stepN, hs] at h
    | refused r => simp [stepN, hs] at h

theorem runEngine_succ_of_engineStep {e : EngineId} {s t : State} (h : engineStep e s = .next t) (k : Nat) :
    runEngine e (k + 1) s = runEngine e k t := by
  simp [runEngine, h]

/-- A turn neither reads nor changes the moves to come (log entry 6). -/
theorem engineStep_with_agenda {e : EngineId} {s t : State} (h : engineStep e s = .next t) (more : List Input) :
    engineStep e { s with agenda := more } = .next { t with agenda := more } := by
  cases e with
  | enc =>
    obtain ⟨e, he, rfl⟩ := engineStep_enc_eq_next_iff.1 h
    exact engineStep_enc_eq_next_iff.2 ⟨e, he, rfl⟩
  | dec =>
    obtain ⟨d, hd, rfl⟩ := engineStep_dec_eq_next_iff.1 h
    exact engineStep_dec_eq_next_iff.2 ⟨d, hd, rfl⟩

/-- Turns of one engine on the agenda are that engine running alone. -/
theorem stepN_replicate_tick {e : EngineId} {n : Nat} {s t : State} (h : runEngine e n s = .next t)
    (more : List Input) :
    stepN n { s with agenda := List.replicate n (.tick e) ++ more } = .next { t with agenda := more } := by
  induction n generalizing s with
  | zero =>
    obtain rfl : s = t := by simpa [runEngine] using h
    rfl
  | succ n ih =>
    cases hs : engineStep e s with
    | next u =>
      rw [runEngine_succ_of_engineStep hs] at h
      have hstep : step { s with agenda := List.replicate (n + 1) (.tick e) ++ more } =
          .next { u with agenda := List.replicate n (.tick e) ++ more } := by
        rw [step_of_agenda (i := .tick e) rfl]
        exact engineStep_with_agenda hs _
      rw [stepN_succ_of_step hstep]
      exact ih h
    | fault f => simp [runEngine, hs] at h
    | refused r => simp [runEngine, hs] at h

/-- An engine that waits for the host goes on waiting (R17, R130). -/
theorem runEngine_of_waiting {e : EngineId} {s : State} (h : s.select e = .waiting) (n : Nat) :
    runEngine e n s = .next s := by
  induction n with
  | zero => rfl
  | succ n ih => rwa [runEngine_succ_of_engineStep (engineStep_of_waiting h)]

@[simp] theorem State.setEnc_setEnc (s : State) (e e' : Enc) : (s.setEnc e).setEnc e' = s.setEnc e' := rfl

/-! ## Loading an input (R93) -/

@[simp] theorem State.setEng_setEng (s : State) (i : EngineId) (e e' : Engine) :
    (s.setEng i e).setEng i e' = s.setEng i e' := by
  cases i <;> rfl

/-- A host write to the input side of an engine that is not BUSY, first on the agenda (R93). -/
theorem step_writeInput {s : State} {m : HostMove} {e : EngineId} {f : Engine → Engine} {more : List Input}
    (hm : ∀ u, hostMove m u = writeInput e f u) (hb : s.busy e = false) (ha : s.agenda = .host m :: more) :
    step s = .next ({ s with agenda := more }.setEng e (f (s.eng e))) := by
  rw [step_of_agenda ha]
  refine (hm _).trans (writeInput_eq_next_iff.2 ⟨?_, ?_⟩)
  · cases e <;> exact hb
  · cases e <;> rfl

/-- Writing bytes one after the other from index `k` on is writing them as a sequence (R34). -/
theorem stepN_writeIn {s : State} {e : EngineId} {b : List Byte} {k : Nat} {more : List Input}
    (hb : s.busy e = false)
    (ha : s.agenda = (b.mapIdx fun j x => .host (.writeIn e (k + j) x)) ++ more) :
    stepN b.length s = .next
      ({ s with agenda := more }.setEng e { s.eng e with inBuf := (s.eng e).inBuf.writeSeq k b }) := by
  induction b generalizing s k with
  | nil =>
    obtain rfl : s.agenda = more := ha
    cases e <;> rfl
  | cons x b ih =>
    rw [List.mapIdx_cons, List.cons_append] at ha
    rw [List.length_cons, stepN_succ_of_step (step_writeInput (f := (·.writeIn k x)) (fun _ => rfl) hb ha),
      ih (k := k + 1) ?_ ?_]
    · cases e <;> rfl
    · cases e <;> exact hb
    · simp [Nat.add_comm, Nat.add_left_comm]

/-- An engine with `b` loaded as its input (R93). -/
def Engine.load (e : Engine) (b : List Byte) : Engine :=
  { e with inBuf := e.inBuf.writeSeq 0 b, inLen := b.length }

/-- What was loaded is the input, whatever `IN` held before. -/
@[simp] theorem Engine.load_inSeq (free : Nat → Nat → Byte) (e : Engine) (b : List Byte) :
    (e.load b).inSeq free = b := by
  refine List.ext_getElem? fun k => ?_
  by_cases hk : k < b.length
  · rw [Engine.inSeq_getElem? free (e.load b) hk]
    simp [Engine.inByte, Engine.load, Memory.read?_writeSeq, hk]
  · rw [List.getElem?_eq_none (by simpa [Engine.load] using hk), List.getElem?_eq_none (by omega)]

/-- The host's moves of one operation, up to its START: the input is loaded (R93, R95). -/
theorem stepN_operationMoves {s : State} {e : EngineId} {b : List Byte} {v : Byte} {more : List Input}
    (hb : s.busy e = false) (ha : s.agenda = operationMoves e b v ++ more) :
    stepN (b.length + 1) s = .next
      ({ s with agenda := .host (.writeCtrl e v) :: more }.setEng e ((s.eng e).load b)) := by
  have hw := stepN_writeIn (k := 0) (more := .host (.writeInLen e b.length) :: .host (.writeCtrl e v) :: more) hb
    (by simpa [operationMoves] using ha)
  rw [stepN_add hw, stepN_succ_of_step
    (step_writeInput (f := (·.writeInLen b.length)) (fun _ => rfl) ?_ (State.setEng_agenda _ _ _))]
  · cases e <;> rfl
  · rwa [State.setEng_busy]

/-- ENC as the host's moves of one operation leave it: `b` loaded, and the scan started (R90, R93). -/
def Enc.startOn (e : Enc) (b : List Byte) : Enc := Enc.start { e with eng := e.eng.load b }

@[simp] theorem Enc.startOn_phase (e : Enc) (b : List Byte) : (e.startOn b).phase = .scan := rfl
@[simp] theorem Enc.startOn_cur (e : Enc) (b : List Byte) : (e.startOn b).eng.cur = 0 := rfl
@[simp] theorem Enc.startOn_inLen (e : Enc) (b : List Byte) : (e.startOn b).eng.inLen = b.length := rfl
@[simp] theorem Enc.startOn_outSeq? (e : Enc) (b : List Byte) : (e.startOn b).eng.outSeq? = some [] := rfl
@[simp] theorem Enc.startOn_inSeq (e : Enc) (b : List Byte) : (e.startOn b).inSeq = b := Engine.load_inSeq _ _ _

/-- The host's moves of one operation of ENC: it scans the loaded input from its first byte, its output empty (R90). -/
theorem stepN_operationMoves_enc {s : State} {b : List Byte} {v : Byte} {more : List Input}
    (hb : s.busy .enc = false) (hv : v.getLsbD 0 = true) (ha : s.agenda = operationMoves .enc b v ++ more) :
    stepN (operationMoves .enc b v).length s = .next { s with enc := s.enc.startOn b, agenda := more } := by
  have hlen : (operationMoves .enc b v).length = b.length + 1 + 1 := by simp [operationMoves]
  rw [hlen, stepN_add (stepN_operationMoves hb ha)]
  refine stepN_succ_of_step ?_ 0
  rw [step_of_agenda (State.setEng_agenda _ _ _)]
  exact (hostMove_writeCtrl_enc v _).trans ((if_pos hv).trans (execEncStart_eq_next_iff.2 ⟨hb, rfl⟩))

/-! ## ENC's turns, from the first production to DONE -/

/-- ENC has ended its operation on the input `b`, with the output `out` (R72). -/
structure Enc.Ended (e : Enc) (b out : List Byte) : Prop where
  phase : e.phase = .done
  inSeq : e.inSeq = b
  cur : e.eng.cur = b.length
  outSeq : e.eng.outSeq? = some out

/-- One turn of ENC in which it runs a step of its own. -/
theorem engineStep_enc_of_step {s : State} {e : Enc} {i : Instr} (hs : s.enc.select = .run i) (h : EncStep i s.enc e) :
    engineStep .enc s = .next (s.setEnc e) :=
  engineStep_enc_eq_next_iff.2 ⟨e, .run hs h, rfl⟩

/-- From POST one turn negates the header window and ends the operation; further turns change nothing. -/
theorem runEngine_enc_of_post {s : State} {out : List Byte} (hp : s.enc.phase = .post)
    (hc : s.enc.eng.cur = s.enc.eng.inLen) (ho : s.enc.eng.outSeq? = some out) (n : Nat) :
    ∃ e : Enc, runEngine .enc (n + 1) s = .next (s.setEnc e) ∧ e.Ended s.enc.inSeq (neg4 out) := by
  obtain ⟨bs, hbs⟩ := exists_headerWindow ho
  have hneg := engineStep_enc_of_step (Enc.select_post hp) (.neg hp hbs)
  refine ⟨_, (runEngine_succ_of_engineStep hneg n).trans (runEngine_of_waiting ?_ n), ?_⟩
  · exact (State.select_enc _).trans (Enc.select_waiting rfl)
  · exact ⟨rfl, rfl, by simpa using hc, Memory.readSeq?_negated ho hbs⟩

/-- From a scan at any cursor, with any output so far, enough turns append the encoding of the rest of the input and
end the operation. Each turn of the scan passes a byte at least (R69). -/
theorem runEngine_enc_of_scan {n : Nat} {s : State} {out : List Byte} (hp : s.enc.phase = .scan)
    (hc : s.enc.eng.cur ≤ s.enc.eng.inLen) (ho : s.enc.eng.outSeq? = some out)
    (hn : s.enc.eng.inLen + 2 ≤ s.enc.eng.cur + n) :
    ∃ e : Enc, runEngine .enc n s = .next (s.setEnc e) ∧
      e.Ended s.enc.inSeq (neg4 (out ++ elog (s.enc.inSeq.drop s.enc.eng.cur))) := by
  induction n generalizing s out with
  | zero => omega
  | succ n ih =>
    cases hla : classify s.enc.inSeq s.enc.eng.cur with
    | none =>
      have hend : s.enc.eng.cur = s.enc.eng.inLen :=
        Nat.le_antisymm hc (by simpa using classify_eq_none_iff.1 hla)
      have hrest : elog (s.enc.inSeq.drop s.enc.eng.cur) = [] := by
        rw [List.drop_eq_nil_of_le (by simp [hend]), elog_nil]
      obtain ⟨k, rfl⟩ : ∃ k, n = k + 1 := ⟨n - 1, by omega⟩
      rw [runEngine_succ_of_engineStep
        (engineStep_enc_of_step (Enc.select_scan_end hp hend) (.endscan hp hend)), hrest, List.append_nil]
      exact runEngine_enc_of_post (s := s.setEnc { s.enc with phase := .post }) rfl hend ho k
    | some la =>
      have hw := (classify_width hla).1
      have hb : s.enc.eng.cur + la.width ≤ s.enc.eng.inLen := by simpa using classify_bound hla
      rw [runEngine_succ_of_engineStep
        (engineStep_enc_of_step (Enc.select_scan hp hla) (.scan hp hla)), elog_drop_of_classify hla,
        ← List.append_assoc]
      refine ih (s := s.setEnc _) hp hb ?_ ?_
      · simp [ho]
      · simp only [State.setEnc_enc, Engine.advance_inLen, Engine.emit_inLen, Engine.advance_cur, Engine.emit_cur]
        omega

end Sys2Proof.Machine

namespace Sys2Proof.Proofs

open Sys2Proof.Machine

/-- Settles O44: the host's moves load `b` and START the scan at its first byte with an empty output, so the turns
append `elog b` and negate its header window. -/
theorem encoderOperationComputesCompress : Obligations.EncoderOperationComputesCompress := by
  intro s b v n hb hv hn ha
  obtain ⟨e, hrun, hend⟩ : ∃ e : Enc, runEngine .enc n (s.setEnc (s.enc.startOn b)) = .next (s.setEnc e) ∧
      e.Ended b (compress b) := by
    simpa [compress] using runEngine_enc_of_scan (s := s.setEnc (s.enc.startOn b)) (n := n) (out := [])
      rfl (Nat.zero_le _) rfl (by simpa using hn)
  have hticks := stepN_replicate_tick hrun []
  rw [List.append_nil] at hticks
  refine ⟨{ s with enc := e, agenda := [] }, ?_, result_enc_of_done hend.phase hend.outSeq, ?_, rfl, hend.cur,
    hend.inSeq, rfl, rfl⟩
  · rw [ha, List.length_append, List.length_replicate, stepN_add (stepN_operationMoves_enc hb hv ha)]
    exact hticks
  · rw [State.status_enc, hend.phase]

end Sys2Proof.Proofs
end

section
/-! PROOFS. The encoder (40_encoder.md) and the decoder (41_decoder.md): while an engine is BUSY the step it selects is
enabled and no other is, and otherwise none is (R69, R85). -/

namespace Sys2Proof.Machine

/-! ## ENC -/

/-- A step of ENC's own that is enabled is the one ENC selects, in any state. -/
theorem EncStep.select_eq {i : Instr} {e e' : Enc} (hs : EncStep i e e') (hi : i.isCommand = false) :
    e.select = .run i := by
  cases hs with
  | scan hp hc => exact Enc.select_scan hp hc
  | endscan hp hc => exact Enc.select_scan_end hp hc
  | neg hp hb => exact Enc.select_post hp
  | start hb => cases hi

/-- While ENC is BUSY one of its steps is enabled (R69): the invariant keeps the cursor in the input, and every byte of
the output written. -/
theorem Enc.Inv.exists_step {e : Enc} (h : e.Inv) (hb : e.busy = true) :
    ∃ i e', EncStep i e e' ∧ i.isCommand = false := by
  rcases e.busy_iff.1 hb with hp | hp
  · cases hla : classify e.inSeq e.eng.cur with
    | none =>
      have hend : e.eng.inLen ≤ e.eng.cur := by simpa using classify_eq_none_iff.1 hla
      exact ⟨_, _, .endscan hp (Nat.le_antisymm (h.curLe hb) hend), rfl⟩
    | some la => exact ⟨_, _, .scan hp hla, by cases la <;> rfl⟩
  · obtain ⟨-, ho⟩ := h.post hp
    obtain ⟨bs, hbs⟩ := exists_headerWindow ho
    exact ⟨_, _, .neg hp hbs, rfl⟩

/-! ## DEC -/

/-- The bytes of a segment at CUR begin the rest of the working copy. -/
theorem Dec.bytesHere.drop_eq {d : Dec} {seg ws : List Byte} (h : d.bytesHere seg) (hw : d.workSeq? = some ws) :
    ws.drop d.eng.cur = seg ++ ws.drop (d.eng.cur + seg.length) := by
  obtain ⟨hl, hr⟩ := h
  have hseg : (ws.drop d.eng.cur).take seg.length = seg :=
    Option.some.inj ((Memory.readSeq?_sub hw hl).symm.trans hr)
  rw [← List.drop_drop]
  conv_lhs => rw [← List.take_append_drop seg.length (ws.drop d.eng.cur), hseg]

/-- DEC selects the segment that the rest of the working copy begins with (R53, R85). -/
theorem Dec.select_of_decode {d : Dec} {ws rest : List Byte} {i : Instr} (hp : d.phase = .scan)
    (hw : d.workSeq? = some ws) (hd : decode ((ws.drop d.eng.cur).take 2) = .ok (i, rest)) : d.select = .run i := by
  refine Dec.select_scan hp (fun hc => ?_) (Dec.window?_eq hw) hd
  have hlen : ws.length = d.eng.inLen := (Memory.readSeq?_eq_some_iff.1 hw).1
  rw [List.drop_eq_nil_of_le (by omega)] at hd
  cases hd

/-- A descriptor at CUR is what DEC selects. -/
theorem Dec.select_of_descriptor {d : Dec} {ws : List Byte} {c : Byte} (hp : d.phase = .scan)
    (hw : d.workSeq? = some ws) (hb : d.bytesHere [Config.marker, c]) : d.select = .run (decodeDescriptor c) := by
  refine Dec.select_of_decode (rest := []) hp hw ?_
  rw [hb.drop_eq hw]
  exact decode_descriptor c []

/-- A step of DEC's own that is enabled is the one DEC selects, once `WORK` is written. -/
theorem DecStep.select_eq {i : Instr} {d d' : Dec} (hs : DecStep i d d') (h : d.Inv) (hi : i.isCommand = false) :
    d.select = .run i := by
  cases hs with
  | lit hp hh =>
    obtain ⟨hw, -⟩ := h.scan hp
    obtain ⟨hb, hne⟩ := Dec.bytesHere_of_literalHere hh
    refine Dec.select_of_decode (rest := ((neg4 d.inSeq).drop (d.eng.cur + 1)).take 1) hp hw ?_
    rw [hb.drop_eq hw]
    exact decode_literal hne _
  | zrun hp hh =>
    obtain ⟨hw, -⟩ := h.scan hp
    obtain ⟨c, hb, hc⟩ := Dec.bytesHere_of_descriptorHere hh
    obtain ⟨hf, rfl⟩ : isFrunControl c = false ∧ zrunLength c = _ := by simpa using hc
    rw [Dec.select_of_descriptor hp hw hb, decodeDescriptor, hf]
    rfl
  | frun hp hh =>
    obtain ⟨hw, -⟩ := h.scan hp
    obtain ⟨c, hb, hc⟩ := Dec.bytesHere_of_descriptorHere hh
    obtain ⟨⟨hf, rfl⟩, rfl⟩ : (isFrunControl c = true ∧ frunUnused c = _) ∧ frunLength c = _ := by simpa using hc
    rw [Dec.select_of_descriptor hp hw hb, decodeDescriptor, hf]
    rfl
  | trunc hp hm hc =>
    obtain ⟨hw, -⟩ := h.scan hp
    refine Dec.select_of_decode (rest := []) hp hw ?_
    have hlen : (neg4 d.inSeq).length = d.eng.inLen := by simp
    rw [(Dec.bytesHere_of_byteAt? hm).drop_eq hw, List.length_singleton, hc, List.drop_eq_nil_of_le hlen.le]
    exact decode_lone_marker
  | unneg hp => exact Dec.select_pre hp
  | finish hp hc => exact Dec.select_scan_end hp hc
  | start hb => cases hi

/-- Reading the working copy at CUR and after it (R86). -/
theorem Dec.byteAt?_of_workSeq? {d : Dec} {ws : List Byte} (hw : d.workSeq? = some ws) (j : Nat) :
    d.byteAt? j = (ws.drop d.eng.cur)[j]? := by
  obtain ⟨hlen, hb⟩ := Memory.readSeq?_eq_some_iff.1 hw
  rw [List.getElem?_drop]
  unfold Dec.byteAt?
  split
  · rename_i hj
    simpa using hb _ hj
  · rw [List.getElem?_eq_none (by omega)]

/-- While DEC is BUSY one of its steps is enabled (R85): the end of the buffer, a literal, a lone marker, or one of the
two descriptors stands at CUR. -/
theorem Dec.Inv.exists_step {d : Dec} (h : d.Inv) (hb : d.busy = true) :
    ∃ i d', DecStep i d d' ∧ i.isCommand = false := by
  rcases d.busy_iff.1 hb with hp | hp
  · exact ⟨_, _, .unneg hp, rfl⟩
  · obtain ⟨hw, -⟩ := h.scan hp
    have hat := Dec.byteAt?_of_workSeq? hw
    have hlen : ((neg4 d.inSeq).drop d.eng.cur).length = d.eng.inLen - d.eng.cur := by simp
    cases hrest : (neg4 d.inSeq).drop d.eng.cur with
    | nil =>
      rw [hrest, List.length_nil] at hlen
      have hle := h.curLe hb
      exact ⟨_, _, .finish hp (by omega), rfl⟩
    | cons b rest =>
      rw [hrest] at hat hlen
      by_cases hm : b = Config.marker
      · subst hm
        cases rest with
        | nil =>
          rw [List.length_singleton] at hlen
          exact ⟨_, _, .trunc hp (hat 0) (by omega), rfl⟩
        | cons c rest =>
          cases hf : isFrunControl c with
          | false => exact ⟨_, _, .zrun hp (n := zrunLength c) (by simp [Dec.descriptorHere, hat, hf]), rfl⟩
          | true =>
            exact ⟨_, _, .frun hp (x := frunUnused c) (n := frunLength c) (by simp [Dec.descriptorHere, hat, hf]), rfl⟩
      · exact ⟨_, _, .lit hp (b := b) (by simp [Dec.literalHere, hat, hm]), rfl⟩

/-! ## An engine that is not BUSY -/

/-- Every step of ENC's own asks for SCAN or POST (R62 to R66). -/
theorem exec_enc_of_not_busy {i : Instr} {s : State} (hb : s.enc.busy = false) (hi : i.engine = .enc)
    (hc : i.isCommand = false) : exec i s = .refused .notEnabled := by
  have hscan : s.enc.phase ≠ .scan := fun hp => by simp [s.enc.busy_iff.2 (.inl hp)] at hb
  have hpost : s.enc.phase ≠ .post := fun hp => by simp [s.enc.busy_iff.2 (.inr hp)] at hb
  cases i with
  | eLit | eZrun | eFrun | eEndscan => exact if_neg fun h => hscan h.1
  | eNeg => exact if_neg hpost
  | encStart => cases hc
  | lit | zrun | frun | trunc | dUnneg | dEnd | decStart => cases hi

/-- Every step of DEC's own asks for PRE or SCAN (R76 to R81). -/
theorem exec_dec_of_not_busy {i : Instr} {s : State} (hb : s.dec.busy = false) (hi : i.engine = .dec)
    (hc : i.isCommand = false) : exec i s = .refused .notEnabled := by
  have hpre : s.dec.phase ≠ .pre := fun hp => by simp [s.dec.busy_iff.2 (.inl hp)] at hb
  have hscan : s.dec.phase ≠ .scan := fun hp => by simp [s.dec.busy_iff.2 (.inr hp)] at hb
  cases i with
  | lit | zrun | frun | trunc | dEnd => exact if_neg fun h => hscan h.1
  | dUnneg => exact if_neg hpre
  | decStart => cases hc
  | eLit | eZrun | eFrun | eEndscan | eNeg | encStart => cases hi

/-- Under the invariant a BUSY engine selects a step that is enabled (R69, R85). -/
theorem State.Inv.exists_selected_step {s : State} (h : s.Inv) {e : EngineId} (hb : s.busy e = true) :
    ∃ i, s.select e = .run i ∧ ∃ t, exec i s = .next t := by
  cases e with
  | enc =>
    obtain ⟨i, e, hs, hi⟩ := h.enc.exists_step hb
    have hsel := hs.select_eq hi
    exact ⟨i, hsel, _, (exec_enc_eq_next_iff (Enc.select_engine hsel).1).2 ⟨e, hs, rfl⟩⟩
  | dec =>
    obtain ⟨i, d, hs, hi⟩ := h.dec.exists_step hb
    have hsel := hs.select_eq h.dec hi
    exact ⟨i, hsel, _, (exec_dec_eq_next_iff (Dec.select_engine hsel).1).2 ⟨d, hs, rfl⟩⟩

/-- Under the invariant an enabled step of an engine is the step it selects (R69, R85). -/
theorem State.Inv.select_of_exec {s t : State} (h : s.Inv) {i : Instr} (hi : i.isCommand = false)
    (ht : exec i s = .next t) : s.select i.engine = .run i := by
  cases he : i.engine with
  | enc =>
    obtain ⟨e, hs, -⟩ := (exec_enc_eq_next_iff he).1 ht
    exact hs.select_eq hi
  | dec =>
    obtain ⟨d, hs, -⟩ := (exec_dec_eq_next_iff he).1 ht
    exact hs.select_eq h.dec hi

end Sys2Proof.Machine

namespace Sys2Proof.Proofs

open Sys2Proof.Machine

/-- Settles O38: the enabled step is the selected one, which is one value. -/
theorem exactlyOneStepIsEnabledWhileBusy : Obligations.ExactlyOneStepIsEnabledWhileBusy := by
  intro s e h
  refine ⟨fun hb => ?_, fun hb j hj hc => ?_⟩
  · obtain ⟨i, hsel, ht⟩ := h.exists_selected_step hb
    obtain ⟨hie, hic⟩ := State.select_engine hsel
    refine ⟨i, ⟨hie, hic, ht⟩, fun j hj hc ⟨u, hu⟩ => ?_⟩
    have hsel' := h.select_of_exec hc hu
    rw [hj, hsel] at hsel'
    exact (Selected.run.inj hsel').symm
  · cases e with
    | enc => exact exec_enc_of_not_busy hb hj hc
    | dec => exact exec_dec_of_not_busy hb hj hc

end Sys2Proof.Proofs
end

section
/-! PROOFS. The decoder (41_decoder.md): what each of its steps does, and when it is enabled (R76 to R82). -/

namespace Sys2Proof.Machine

/-! ## One scan step, for whatever segment stands at CUR (R77 to R79) -/

/-- DEC with the bytes `bs` appended to its output and `n` bytes of its input passed: what D.LIT, D.ZRUN and D.FRUN
leave (`execLit_iff`, `execZrun_iff`, `execFrun_iff`). -/
def Dec.pass (d : Dec) (bs : List Byte) (n : Nat) : Dec := { d with eng := (d.eng.emit bs).advance n }

/-- The enabling condition and the effect of D.LIT (R77), in terms of `WORK`. -/
theorem execLit_iff {b : Byte} {s t : State} :
    exec (.lit b) s = .next t ↔
      (s.dec.phase = .scan ∧ s.dec.eng.cur < s.dec.eng.inLen ∧
        s.dec.work.read? s.dec.eng.cur = some b ∧ b ≠ 0x00) ∧
        t = s.setDec (s.dec.pass [b] 1) :=
  execLit_eq_next_iff.trans (and_congr_left' (and_congr_right' Dec.literalHere_iff))

/-- The enabling condition and the effect of D.ZRUN (R78), in terms of `WORK`. -/
theorem execZrun_iff {n : Nat} {s t : State} :
    exec (.zrun n) s = .next t ↔
      (s.dec.phase = .scan ∧ s.dec.eng.cur + 1 < s.dec.eng.inLen ∧ s.dec.work.read? s.dec.eng.cur = some 0x00 ∧
        ∃ c, s.dec.work.read? (s.dec.eng.cur + 1) = some c ∧ c &&& 0x80 = 0 ∧ n = (c &&& 0x7F).toNat + 1) ∧
        t = s.setDec (s.dec.pass (List.replicate n 0x00) 2) := by
  have hctl : ∀ c : Byte, (!isFrunControl c && zrunLength c == n) = true ↔
      c &&& 0x80 = 0 ∧ n = (c &&& 0x7F).toNat + 1 :=
    fun c => by
      rw [Bool.and_eq_true, Bool.not_eq_true', isFrunControl_eq_false_iff, beq_iff_eq, eq_comm (b := n)]
      rfl
  refine execZrun_eq_next_iff.trans (and_congr_left' (and_congr_right' ?_))
  simp only [Dec.descriptorHere_iff, hctl]
  rfl

/-- The enabling condition and the effect of D.FRUN (R79, D5), in terms of `WORK`. -/
theorem execFrun_iff {x : BitVec 2} {n : Nat} {s t : State} :
    exec (.frun x n) s = .next t ↔
      (s.dec.phase = .scan ∧ s.dec.eng.cur + 1 < s.dec.eng.inLen ∧ s.dec.work.read? s.dec.eng.cur = some 0x00 ∧
        ∃ c, s.dec.work.read? (s.dec.eng.cur + 1) = some c ∧ c &&& 0x80 ≠ 0 ∧ x = c.extractLsb' 5 2 ∧
          n = (c &&& 0x1F).toNat + 1) ∧
        t = s.setDec (s.dec.pass (List.replicate n 0xFF) 2) := by
  have hctl : ∀ c : Byte, (isFrunControl c && frunUnused c == x && frunLength c == n) = true ↔
      c &&& 0x80 ≠ 0 ∧ x = c.extractLsb' 5 2 ∧ n = (c &&& 0x1F).toNat + 1 :=
    fun c => by
      rw [Bool.and_eq_true, Bool.and_eq_true, isFrunControl_eq_true_iff, beq_iff_eq, beq_iff_eq, and_assoc,
        eq_comm (b := x), eq_comm (b := n)]
      rfl
  refine execFrun_eq_next_iff.trans (and_congr_left' (and_congr_right' ?_))
  simp only [Dec.descriptorHere_iff, hctl]
  rfl

/-- The enabling condition and the effect of D.TRUNC (R80), in terms of `WORK`. -/
theorem execTrunc_iff {s t : State} :
    exec .trunc s = .next t ↔
      (s.dec.phase = .scan ∧ s.dec.eng.cur + 1 = s.dec.eng.inLen ∧ s.dec.work.read? s.dec.eng.cur = some 0x00) ∧
        t = s.setDec s.dec.raiseMalformed := by
  refine execTrunc_eq_next_iff.trans (and_congr_left' (and_congr_right' ?_))
  rw [Dec.byteAt?_eq_some_iff, Nat.add_zero]
  constructor
  · rintro ⟨⟨-, hm⟩, hc⟩
    exact ⟨hc, hm⟩
  · rintro ⟨hc, hm⟩
    exact ⟨⟨by omega, hm⟩, hc⟩

/-- What passing a segment does: the output grows by the bytes appended, CUR by the bytes passed (R13, R34). -/
theorem State.setDec_pass_effect (s : State) (bs : List Byte) (n : Nat) :
    (s.setDec (s.dec.pass bs n)).dec.eng.outSeq? = s.dec.eng.outSeq?.map (· ++ bs) ∧
      (s.setDec (s.dec.pass bs n)).dec.eng.outLen = s.dec.eng.outLen + bs.length ∧
      (s.setDec (s.dec.pass bs n)).dec.eng.cur = s.dec.eng.cur + n ∧
      (s.setDec (s.dec.pass bs n)).status .dec = s.status .dec :=
  ⟨Engine.emit_outSeq? _ _, rfl, rfl, State.status_dec_congr rfl rfl⟩

/-- A condition with one effect is what enables a step with that effect. -/
theorem exists_next_iff {r : Result} {P : Prop} {u : State} (h : ∀ t, r = .next t ↔ P ∧ t = u) :
    (∃ t, r = .next t) ↔ P := by
  simp only [h, exists_and_left, exists_eq, and_true]

/-- D.LIT, D.ZRUN and D.FRUN are one step: they pass a segment, and append one byte or the run's length (R77 to R79). -/
theorem exec_scan_eq_pass {s t : State} {i : Instr} {n : Nat}
    (hi : ((∃ b, i = .lit b) ∧ n = 1) ∨ i = .zrun n ∨ ∃ x, i = .frun x n) (h : exec i s = .next t) :
    ∃ bs m, bs.length = n ∧ t = s.setDec (s.dec.pass bs m) := by
  rcases hi with ⟨⟨b, rfl⟩, rfl⟩ | rfl | ⟨x, rfl⟩
  · exact ⟨_, _, rfl, (execLit_iff.1 h).2⟩
  · exact ⟨_, _, List.length_replicate, (execZrun_iff.1 h).2⟩
  · exact ⟨_, _, List.length_replicate, (execFrun_iff.1 h).2⟩

theorem State.status_dec_of_done {s : State} (hp : s.dec.phase = .done) (he : s.dec.err = false) :
    s.status .dec = 0x02 := by
  rw [State.status_dec, hp, he]
  rfl

theorem State.status_dec_of_err {s : State} (hp : s.dec.phase = .done) (he : s.dec.err = true) :
    s.status .dec = 0x06 := by
  rw [State.status_dec, hp, he]
  rfl

/-- D.UNNEG's copy reads back as the header negation of IN, whatever `WORK` held (R76). -/
theorem Dec.readSeq?_unneg (d : Dec) :
    (d.work.writeSeq 0 (neg4 d.inSeq)).readSeq? 0 d.eng.inLen = some (neg4 d.inSeq) := by
  have h := Memory.readSeq?_writeSeq d.work 0 (neg4 d.inSeq)
  rwa [neg4_length, Dec.inSeq_length] at h

/-- The header negation byte by byte, as a mask (R50, R82). -/
theorem neg4_getElem?_mask (w : List Byte) (k : Nat) :
    (neg4 w)[k]? = w[k]?.map (· ^^^ (if k < 4 then 0xFF else 0x00)) := by
  rw [neg4_getElem?]
  by_cases hk : k < 4 <;> simp [hk]

end Sys2Proof.Machine

namespace Sys2Proof.Proofs

open Sys2Proof.Machine

/-- Settles O14: the copy is written from index 0 on, over whatever `WORK` held, and PRE and SCAN are both BUSY. -/
theorem decoderUnnegatesCopyOfInput : Obligations.DecoderUnnegatesCopyOfInput := by
  intro s hp
  refine ⟨_, execDUnneg_eq_next_iff.2 ⟨hp, rfl⟩, rfl, s.dec.readSeq?_unneg, fun a ha => ?_, rfl, rfl, rfl, ?_, rfl,
    rfl⟩
  · refine Memory.read?_writeSeq_of_outside ?_
    rw [neg4_length, Dec.inSeq_length]
    omega
  · rw [State.status_dec, State.status_dec, hp]
    rfl

/-- Settles O15: a byte other than the marker is a segment of its own. -/
theorem decoderPassesLiteral : Obligations.DecoderPassesLiteral := by
  intro s b hp hc hb hne
  exact ⟨_, execLit_iff.2 ⟨⟨hp, hc, hb, hne⟩, rfl⟩, s.setDec_pass_effect [b] 1⟩

/-- Settles O16: a control byte with bit 7 clear makes the segment a 0x00-run. -/
theorem decoderExpandsZeroRun : Obligations.DecoderExpandsZeroRun := by
  intro s c len hp hc hm hctl h7 hlen
  refine ⟨_, execZrun_iff.2 ⟨⟨hp, hc, hm, c, hctl, h7, hlen⟩, rfl⟩, ?_⟩
  simpa only [List.length_replicate] using s.setDec_pass_effect (List.replicate len 0x00) 2

/-- Settles O17: a control byte with bit 7 set makes the segment a 0xFF-run, its bits 6:5 the operand `x`. -/
theorem decoderExpandsFullRun : Obligations.DecoderExpandsFullRun := by
  intro s c len hp hc hm hctl h7 hlen
  refine ⟨_, execFrun_iff.2 ⟨⟨hp, hc, hm, c, hctl, h7, rfl, hlen⟩, rfl⟩, ?_⟩
  simpa only [List.length_replicate] using s.setDec_pass_effect (List.replicate len 0xFF) 2

/-- Settles O18: D.TRUNC raises MalformedStream, which sets OUT_LEN to 0 and leaves every storage as it is. -/
theorem decoderRaisesMalformedStream : Obligations.DecoderRaisesMalformedStream := by
  intro s hp hc hm
  exact ⟨_, execTrunc_iff.2 ⟨⟨hp, hc, hm⟩, rfl⟩, rfl, rfl, rfl, rfl, State.status_dec_of_err rfl rfl,
    fun k => if_neg fun h => Nat.not_lt_zero k h.2, rfl, rfl, rfl, fun _ => rfl, fun _ => rfl, fun _ => rfl, rfl, rfl⟩

/-- Settles O19: D.END writes PHASE alone. -/
theorem decoderEndsAtEndOfInput : Obligations.DecoderEndsAtEndOfInput := by
  intro s hp hc
  exact ⟨_, execDEnd_eq_next_iff.2 ⟨⟨hp, hc⟩, rfl⟩, rfl, rfl, rfl, rfl, rfl,
    fun he => State.status_dec_of_done rfl he, rfl, rfl⟩

/-- Settles O20: each step has one effect, under its own condition. -/
theorem decoderStepEnabledExactlyWhen : Obligations.DecoderStepEnabledExactlyWhen := by
  intro s
  exact ⟨exists_next_iff fun _ => execDUnneg_eq_next_iff, fun _ => exists_next_iff fun _ => execLit_iff,
    fun _ => exists_next_iff fun _ => execZrun_iff, fun _ _ => exists_next_iff fun _ => execFrun_iff,
    exists_next_iff fun _ => execTrunc_iff, exists_next_iff fun _ => execDEnd_eq_next_iff⟩

/-- Settles O21: the three steps are one step, for the bytes the segment stands for. -/
theorem decoderScanStepFrame : Obligations.DecoderScanStepFrame := by
  intro s t i n hi h
  obtain ⟨bs, m, rfl, rfl⟩ := exec_scan_eq_pass hi h
  exact ⟨rfl, rfl, rfl, rfl, rfl, rfl, rfl, rfl, rfl, State.status_dec_congr rfl rfl,
    fun _ => Memory.read?_writeSeq_of_outside⟩

/-- Settles O43: the invariant says what `WORK` holds as a sequence, and the header negation says it byte by byte. -/
theorem workIsInputUnnegatedOnDemand : Obligations.WorkIsInputUnnegatedOnDemand := by
  intro s hs hp k hk
  obtain ⟨hw, -⟩ := hs.dec.scan hp
  obtain ⟨-, hread⟩ := Memory.readSeq?_eq_some_iff.1 hw
  rw [← Nat.zero_add k, hread k hk, Nat.zero_add, neg4_getElem?_mask]

end Sys2Proof.Proofs
end

section
/-! PROOFS. The decoder (41_decoder.md): an operation is a function call (R88, R95). The host's moves load the stream,
D.UNNEG copies it un-negated, and DEC's turns carry the output from segment to segment to either end (R132). -/

namespace Sys2Proof.Machine

/-- DEC as the host's moves of one operation leave it: `w` loaded, and the operation started (R91, R93). -/
def Dec.startOn (d : Dec) (w : List Byte) : Dec := Dec.start { d with eng := d.eng.load w }

@[simp] theorem Dec.startOn_inSeq (d : Dec) (w : List Byte) : (d.startOn w).inSeq = w := Engine.load_inSeq _ _ _

/-- The host's moves of one operation of DEC, whatever an earlier one left (R91, R126). -/
theorem stepN_operationMoves_dec {s : State} {w : List Byte} {v : Byte} {more : List Input}
    (hb : s.busy .dec = false) (hv : v.getLsbD 0 = true) (ha : s.agenda = operationMoves .dec w v ++ more) :
    stepN (operationMoves .dec w v).length s = .next { s with dec := s.dec.startOn w, agenda := more } := by
  have hlen : (operationMoves .dec w v).length = w.length + 1 + 1 := by simp [operationMoves]
  rw [hlen, stepN_add (stepN_operationMoves hb ha)]
  refine stepN_succ_of_step ?_ 0
  rw [step_of_agenda (State.setEng_agenda _ _ _)]
  exact (hostMove_writeCtrl_dec v _).trans ((if_pos hv).trans (execDecStart_eq_next_iff.2 ⟨hb, rfl⟩))

/-! ## DEC's scan at a segment boundary -/

/-- DEC scans the un-negated copy of `w`: its output is `out`, and the logical bytes `rest` are still to be passed. The
part of R26 that the scan itself needs: that the storage is canonical is not asked for, so an operation may begin in any
state (R95). -/
structure Dec.ScanAt (d : Dec) (w out rest : List Byte) : Prop where
  phase : d.phase = .scan
  inSeq : d.inSeq = w
  work : d.workSeq? = some (neg4 w)
  curLe : d.eng.cur ≤ w.length
  rest : (neg4 w).drop d.eng.cur = rest
  outSeq : d.eng.outSeq? = some out
  err : d.err = false
  cause : d.cause = 0

/-- DEC has ended its operation on `w` with one of the two outcomes of R132. -/
structure Dec.Ended (d : Dec) (w : List Byte) (res : Except DecodeFailure (List Byte)) : Prop where
  phase : d.phase = .done
  inSeq : d.inSeq = w
  ok : ∀ out, res = .ok out → d.err = false ∧ d.cause = 0 ∧ d.eng.cur = w.length ∧ d.eng.outSeq? = some out
  malformed : res = .error .malformedStream →
    d.err = true ∧ d.cause = 1 ∧ d.eng.outLen = 0 ∧ d.eng.cur = w.length - 1

theorem Dec.ScanAt.inLen_eq {d : Dec} {w out rest : List Byte} (h : d.ScanAt w out rest) : d.eng.inLen = w.length := by
  rw [← h.inSeq, Dec.inSeq_length]

theorem Dec.ScanAt.rest_length {d : Dec} {w out rest : List Byte} (h : d.ScanAt w out rest) :
    d.eng.cur + rest.length = d.eng.inLen := by
  have hle := h.curLe
  rw [← h.rest, List.length_drop, neg4_length, h.inLen_eq]
  omega

/-- The bytes at CUR are the first bytes of the rest. -/
theorem Dec.ScanAt.byteAt?_eq {d : Dec} {w out rest : List Byte} (h : d.ScanAt w out rest) (j : Nat) :
    d.byteAt? j = rest[j]? := by
  rw [Dec.byteAt?_of_workSeq? h.work, h.rest]

/-- DEC selects the segment that the rest begins with (R53, R85). -/
theorem Dec.ScanAt.select_eq {d : Dec} {w out rest rest' : List Byte} {i : Instr} (h : d.ScanAt w out rest)
    (hd : decode (rest.take 2) = .ok (i, rest')) : d.select = .run i :=
  Dec.select_of_decode h.phase h.work (h.rest ▸ hd)

/-- Passing a segment, with what it stands for appended, is a scan of what follows it. -/
theorem Dec.ScanAt.pass {d : Dec} {w out seg rest : List Byte} (h : d.ScanAt w out (seg ++ rest)) (run : List Byte) :
    (d.pass run seg.length).ScanAt w (out ++ run) rest where
  phase := h.phase
  inSeq := h.inSeq
  work := h.work
  curLe := by
    have hlen := h.rest_length
    rw [List.length_append, h.inLen_eq] at hlen
    change d.eng.cur + seg.length ≤ w.length
    omega
  rest := by
    change (neg4 w).drop (d.eng.cur + seg.length) = rest
    rw [← List.drop_drop, h.rest, List.drop_left]
  outSeq := by
    change ((d.eng.emit run).advance seg.length).outSeq? = _
    rw [Engine.advance_outSeq?, Engine.emit_outSeq?, h.outSeq]
    rfl
  err := h.err
  cause := h.cause

/-! ## One turn of a scan, by what the rest begins with -/

/-- At the end of the input the turn is D.END: the output is the result (R81). -/
theorem Dec.ScanAt.turn_nil {d : Dec} {w out : List Byte} (h : d.ScanAt w out []) :
    ∃ d', DecTurn d d' ∧ d'.Ended w (.ok out) := by
  have hc : d.eng.cur = d.eng.inLen := h.rest_length
  refine ⟨_, .run (Dec.select_scan_end h.phase hc) (.finish h.phase hc), rfl, h.inSeq, ?_, nofun⟩
  rintro _ ⟨⟩
  exact ⟨h.err, h.cause, hc.trans h.inLen_eq, h.outSeq⟩

/-- At a lone marker the turn is D.TRUNC: the operation ends with the error (R80). -/
theorem Dec.ScanAt.turn_lone_marker {d : Dec} {w out : List Byte} (h : d.ScanAt w out [Config.marker]) :
    ∃ d', DecTurn d d' ∧ d'.Ended w (.error .malformedStream) := by
  have hc : d.eng.cur + 1 = d.eng.inLen := h.rest_length
  have hlen := h.inLen_eq
  refine ⟨_, .run (h.select_eq decode_lone_marker) (.trunc h.phase (h.byteAt?_eq 0) hc), rfl, h.inSeq, nofun,
    fun _ => ⟨rfl, rfl, rfl, ?_⟩⟩
  change d.eng.cur = w.length - 1
  omega

/-- At a literal the turn is D.LIT (R77). -/
theorem Dec.ScanAt.turn_literal {d : Dec} {w out rest : List Byte} {b : Byte} (h : d.ScanAt w out (b :: rest))
    (hb : b ≠ Config.marker) : DecTurn d (d.pass [b] 1) :=
  .run (h.select_eq (decode_literal hb _)) (.lit h.phase (by simp [Dec.literalHere, h.byteAt?_eq, hb]))

/-- At a descriptor the turn is D.ZRUN or D.FRUN, by bit 7 of the control byte: it appends what the descriptor stands
for (R78, R79). -/
theorem Dec.ScanAt.turn_descriptor {d : Dec} {w out rest : List Byte} {c : Byte}
    (h : d.ScanAt w out (Config.marker :: c :: rest)) :
    ∃ run, dlog [Config.marker, c] = .ok run ∧ DecTurn d (d.pass run 2) := by
  have hsel : d.select = .run (decodeDescriptor c) := h.select_eq (decode_descriptor c [])
  rcases decodeDescriptor_cases c with ⟨hf, hd⟩ | ⟨hf, hd⟩ <;> rw [hd] at hsel
  · exact ⟨_, dlog_zrun hf, .run hsel (.zrun h.phase (by simp [Dec.descriptorHere, h.byteAt?_eq, hf]))⟩
  · exact ⟨_, dlog_frun hf, .run hsel (.frun h.phase (by simp [Dec.descriptorHere, h.byteAt?_eq, hf]))⟩

/-! ## DEC's turns, from D.UNNEG to DONE -/

/-- The turn that ends the operation, and then turns that change nothing (R17, R130). -/
theorem runEngine_dec_of_ended {s : State} {d : Dec} {w : List Byte} {res : Except DecodeFailure (List Byte)}
    (ht : DecTurn s.dec d) (hd : d.Ended w res) {n : Nat} (hn : 1 ≤ n) : runEngine .dec n s = .next (s.setDec d) := by
  obtain ⟨k, rfl⟩ : ∃ k, n = k + 1 := ⟨n - 1, by omega⟩
  rw [runEngine_succ_of_engineStep (engineStep_dec_eq_next_iff.2 ⟨d, ht, rfl⟩)]
  refine runEngine_of_waiting ((State.select_dec _).trans (Dec.select_waiting ?_)) k
  simp [Dec.busy, hd.phase]

/-- A turn that passes a segment leaves the turns that scan the rest, and the segment's bytes stand in front of what
they append (R84). -/
theorem runEngine_dec_of_pass {s : State} {w out seg run rest : List Byte} {n : Nat}
    (ht : DecTurn s.dec (s.dec.pass run seg.length)) (hd : dlog seg = .ok run)
    (ih : ∃ d, runEngine .dec n (s.setDec (s.dec.pass run seg.length)) = .next (s.setDec d) ∧
      d.Ended w ((dlog rest).map (out ++ run ++ ·))) :
    ∃ d, runEngine .dec (n + 1) s = .next (s.setDec d) ∧ d.Ended w ((dlog (seg ++ rest)).map (out ++ ·)) := by
  obtain ⟨d, hrun, hend⟩ := ih
  refine ⟨d, (runEngine_succ_of_engineStep (engineStep_dec_eq_next_iff.2 ⟨_, ht, rfl⟩) n).trans hrun, ?_⟩
  have hmap : (dlog (seg ++ rest)).map (out ++ ·) = (dlog rest).map (out ++ run ++ ·) := by
    rw [dlog_append hd]
    cases dlog rest <;> simp [Except.map]
  rwa [hmap]

/-- From a scan with the logical bytes `rest` to pass, enough turns append the decoding of the rest, or find the lone
marker at its end. Each turn passes a segment (R85), so the induction is over the rest by its segments. -/
theorem runEngine_dec_of_scanAt {n : Nat} {s : State} {w out rest : List Byte} (h : s.dec.ScanAt w out rest)
    (hn : rest.length + 1 ≤ n) :
    ∃ d, runEngine .dec n s = .next (s.setDec d) ∧ d.Ended w ((dlog rest).map (out ++ ·)) := by
  induction rest using stream_induction generalizing n s out with
  | nil =>
    obtain ⟨d, ht, hd⟩ := h.turn_nil
    exact ⟨d, runEngine_dec_of_ended ht hd (by omega), by simpa [dlog, Except.map] using hd⟩
  | trunc =>
    obtain ⟨d, ht, hd⟩ := h.turn_lone_marker
    exact ⟨d, runEngine_dec_of_ended ht hd (by omega), by simpa [dlog, Except.map] using hd⟩
  | literal b rest hb ih =>
    obtain ⟨k, rfl⟩ : ∃ k, n = k + 1 := ⟨n - 1, by omega⟩
    exact runEngine_dec_of_pass (seg := [b]) (h.turn_literal hb) (dlog_literal hb)
      (ih (h.pass (seg := [b]) [b]) (by simpa using hn))
  | descriptor c rest ih =>
    obtain ⟨k, rfl⟩ : ∃ k, n = k + 1 := ⟨n - 1, by omega⟩
    obtain ⟨run, hrun, ht⟩ := h.turn_descriptor
    rw [List.length_cons, List.length_cons] at hn
    exact runEngine_dec_of_pass (seg := [Config.marker, c]) ht hrun
      (ih (h.pass (seg := [Config.marker, c]) run) (by omega))

/-- D.UNNEG, the first turn of an operation, begins the scan at the first logical byte with an empty output (R76). -/
theorem scanAt_unneg_startOn (d : Dec) (w : List Byte) :
    ∃ d', DecTurn (d.startOn w) d' ∧ d'.ScanAt w [] (neg4 w) := by
  have hw := (d.startOn w).readSeq?_unneg
  rw [Dec.startOn_inSeq] at hw
  refine ⟨_, .run (Dec.select_pre rfl) (.unneg rfl), ?_⟩
  rw [Dec.startOn_inSeq]
  exact ⟨rfl, d.startOn_inSeq w, hw, Nat.zero_le _, rfl, rfl, rfl, rfl⟩

/-- DEC's turns on the loaded stream end with what `decompress` says of it (R84, R88). -/
theorem runEngine_dec_of_startOn {n : Nat} (s : State) {w : List Byte} (hn : w.length + 2 ≤ n) :
    ∃ d, runEngine .dec n (s.setDec (s.dec.startOn w)) = .next (s.setDec d) ∧ d.Ended w (decompress w) := by
  obtain ⟨k, rfl⟩ : ∃ k, n = k + 1 := ⟨n - 1, by omega⟩
  obtain ⟨d, ht, hd⟩ := scanAt_unneg_startOn s.dec w
  obtain ⟨d', hrun, hend⟩ := runEngine_dec_of_scanAt (s := s.setDec d) (n := k) hd (by simpa using hn)
  refine ⟨d', (runEngine_succ_of_engineStep (engineStep_dec_eq_next_iff.2 ⟨d, ht, rfl⟩) k).trans hrun, ?_⟩
  have hmap : (dlog (neg4 w)).map (([] : List Byte) ++ ·) = decompress w := by
    unfold decompress
    cases dlog (neg4 w) <;> simp [Except.map]
  rwa [hmap] at hend

end Sys2Proof.Machine

namespace Sys2Proof.Proofs

open Sys2Proof.Machine

/-- Settles O45: the host's moves load `w` and START, D.UNNEG begins the scan, and the turns end with `decompress w`. -/
theorem decoderOperationComputesDecompress : Obligations.DecoderOperationComputesDecompress := by
  intro s w v n hb hv hn ha
  obtain ⟨d, hrun, hend⟩ := runEngine_dec_of_startOn s hn
  have hticks := stepN_replicate_tick hrun []
  rw [List.append_nil] at hticks
  refine ⟨{ s with dec := d, agenda := [] }, ?_, hend.inSeq, rfl, rfl, fun r hr => ?_, fun hr => ?_⟩
  · rw [ha, List.length_append, List.length_replicate, stepN_add (stepN_operationMoves_dec hb hv ha)]
    exact hticks
  · obtain ⟨herr, hcause, hcur, hout⟩ := hend.ok r hr
    exact ⟨result_dec_of_done hend.phase herr hout, State.status_dec_of_done hend.phase herr, hcause, hcur⟩
  · obtain ⟨herr, hcause, hlen, hcur⟩ := hend.malformed hr
    exact ⟨hcause ▸ result_dec_of_err (s := { s with dec := d, agenda := [] }) hend.phase herr,
      State.status_dec_of_err hend.phase herr, hlen, hcur⟩

end Sys2Proof.Proofs
end

section
/-! PROOFS. The commands and the host's side of an engine (42_commands.md): START, the host's moves, and what the host
reads of a finished operation. -/

namespace Sys2Proof.Machine

/-! ## What stays of a finished operation -/

/-- A turn of ENC while it waits for the host changes nothing (R17, R130). -/
theorem EncTurn.eq_of_not_busy {e e' : Enc} (ht : EncTurn e e') (hb : e.busy = false) : e' = e := by
  cases ht with
  | wait => rfl
  | run hs => cases hs.symm.trans (Enc.select_waiting hb)

/-- A turn of DEC while it waits for the host changes nothing (R17, R130). -/
theorem DecTurn.eq_of_not_busy {d d' : Dec} (ht : DecTurn d d') (hb : d.busy = false) : d' = d := by
  cases ht with
  | wait => rfl
  | run hs => cases hs.symm.trans (Dec.select_waiting hb)

/-- An engine with another input. -/
def Engine.withInput (e : Engine) (m : Memory) (n : Nat) : Engine := { e with inBuf := m, inLen := n }

/-- What a move can do to ENC while it is not BUSY: start an operation, reset, or change the input (R93, R97). -/
theorem EncMove.cases_of_not_busy {i : Input} {e e' : Enc} (hm : EncMove i e e') (hb : e.busy = false) :
    (∃ v : Byte, v.getLsbD 0 = true ∧ i = .host (.writeCtrl .enc v)) ∨ i = .host (.reset .enc) ∨
      ∃ m n, e' = { e with eng := e.eng.withInput m n } := by
  cases hm with
  | stay => exact .inr (.inr ⟨_, _, rfl⟩)
  | turn ht => exact .inr (.inr ⟨_, _, ht.eq_of_not_busy hb⟩)
  | writeIn | writeInLen => exact .inr (.inr ⟨_, _, rfl⟩)
  | start hv => exact .inl ⟨_, hv, rfl⟩
  | reset => exact .inr (.inl rfl)

/-- What a move can do to DEC while it is not BUSY: start an operation, reset, or change the input (R93, R97). -/
theorem DecMove.cases_of_not_busy {i : Input} {d d' : Dec} (hm : DecMove i d d') (hb : d.busy = false) :
    (∃ v : Byte, v.getLsbD 0 = true ∧ i = .host (.writeCtrl .dec v)) ∨ i = .host (.reset .dec) ∨
      ∃ m n, d' = { d with eng := d.eng.withInput m n } := by
  cases hm with
  | stay => exact .inr (.inr ⟨_, _, rfl⟩)
  | turn ht => exact .inr (.inr ⟨_, _, ht.eq_of_not_busy hb⟩)
  | writeIn | writeInLen => exact .inr (.inr ⟨_, _, rfl⟩)
  | start hv => exact .inl ⟨_, hv, rfl⟩
  | reset => exact .inr (.inl rfl)

/-- The host reads the same result, CAUSE, OUT_LEN and OUT of an engine in two states (R94). -/
def SameReads (e : EngineId) (s t : State) : Prop :=
  result e t = result e s ∧ readCause e t = readCause e s ∧ readOutLen e t = readOutLen e s ∧
    ∀ k, readOut e k t = readOut e k s

/-- No read of ENC's result looks at its input. -/
theorem sameReads_of_enc_withInput {s t : State} {m : Memory} {n : Nat}
    (h : t.enc = { s.enc with eng := s.enc.eng.withInput m n }) : SameReads .enc s t := by
  obtain ⟨enc, dec, agenda⟩ := t
  obtain rfl : enc = _ := h
  exact ⟨rfl, rfl, rfl, fun _ => rfl⟩

/-- No read of DEC's result looks at its input. -/
theorem sameReads_of_dec_withInput {s t : State} {m : Memory} {n : Nat}
    (h : t.dec = { s.dec with eng := s.dec.eng.withInput m n }) : SameReads .dec s t := by
  obtain ⟨enc, dec, agenda⟩ := t
  obtain rfl : dec = _ := h
  exact ⟨rfl, rfl, rfl, fun _ => rfl⟩

/-- While an engine is not BUSY, only its START and its reset event change what the host reads of it (R94). -/
theorem step_cases_of_not_busy {s t : State} {e : EngineId} (hb : s.busy e = false) (h : step s = .next t) :
    (∃ v : Byte, v.getLsbD 0 = true ∧ s.turn.1 = .host (.writeCtrl e v)) ∨ s.turn.1 = .host (.reset e) ∨
      SameReads e s t := by
  obtain ⟨he, hd⟩ := step_moves h
  cases e with
  | enc => exact (he.cases_of_not_busy hb).imp_right (.imp_right fun ⟨_, _, ht⟩ => sameReads_of_enc_withInput ht)
  | dec => exact (hd.cases_of_not_busy hb).imp_right (.imp_right fun ⟨_, _, ht⟩ => sameReads_of_dec_withInput ht)

/-! ## What the host reads of a finished operation -/

theorem State.Inv.eng {s : State} (h : s.Inv) (e : EngineId) : (s.eng e).Inv := by
  cases e with
  | enc => exact h.enc.eng
  | dec => exact h.dec.eng

/-- CAUSE is 0 while ERR is 0, in ENC always (R19). -/
theorem State.Inv.cause_eq_zero {s : State} (h : s.Inv) {e : EngineId} (he : s.err e = false) : s.cause e = 0 := by
  cases e with
  | enc => rfl
  | dec => exact h.dec.noErr he

theorem readCause_of_done {s : State} {e : EngineId} (hd : s.done e = true) : readCause e s = some (s.cause e) :=
  if_neg (by simp [State.not_busy_of_done hd])

theorem readOutLen_of_done {s : State} {e : EngineId} (hd : s.done e = true) :
    readOutLen e s = some (s.eng e).outLen :=
  if_neg (by simp [State.not_busy_of_done hd])

theorem result_of_done {s : State} {e : EngineId} {out : List Byte} (hd : s.done e = true) (he : s.err e = false)
    (ho : (s.eng e).outSeq? = some out) : result e s = some (.ok out) := by
  simp [result, hd, he, ho]

/-- In DONE the host reads the output byte by byte (R94). -/
theorem readOut_of_done {s : State} {e : EngineId} {out : List Byte} (hd : s.done e = true)
    (ho : (s.eng e).outSeq? = some out) {k : Nat} (hk : k < out.length) : readOut e k s = out[k]? := by
  obtain ⟨hlen, hread⟩ := Memory.readSeq?_eq_some_iff.1 ho
  rw [hlen] at hk
  exact (if_pos ⟨hd, hk⟩).trans (by simpa using hread k hk)

/-! ## Host writes, answered and refused -/

/-- A host write of a byte of `IN` (R93). -/
theorem hostMove_writeIn_eq_next_iff {e : EngineId} {k : Nat} {b : Byte} {s t : State} :
    hostMove (.writeIn e k b) s = .next t ↔ s.busy e = false ∧ t = s.setEng e ((s.eng e).writeIn k b) :=
  writeInput_eq_next_iff (f := (·.writeIn k b))

/-- A host write of `IN_LEN` (R93). -/
theorem hostMove_writeInLen_eq_next_iff {e : EngineId} {n : Nat} {s t : State} :
    hostMove (.writeInLen e n) s = .next t ↔ s.busy e = false ∧ t = s.setEng e ((s.eng e).writeInLen n) :=
  writeInput_eq_next_iff (f := (·.writeInLen n))

theorem execEncStart_of_busy {s : State} (hb : s.enc.busy = true) :
    execEncStart s = .refused (.startWhileBusy .enc) := if_pos hb

theorem execDecStart_of_busy {s : State} (hb : s.dec.busy = true) :
    execDecStart s = .refused (.startWhileBusy .dec) := if_pos hb

theorem hostMove_writeIn_of_busy {s : State} {e : EngineId} (hb : s.busy e = true) (k : Nat) (b : Byte) :
    hostMove (.writeIn e k b) s = .refused (.inputWriteWhileBusy e) := if_pos hb

theorem hostMove_writeInLen_of_busy {s : State} {e : EngineId} (hb : s.busy e = true) (n : Nat) :
    hostMove (.writeInLen e n) s = .refused (.inputWriteWhileBusy e) := if_pos hb

end Sys2Proof.Machine

namespace Sys2Proof.Proofs

open Sys2Proof.Machine

/-- Settles O5: the invariant has every byte of the output written, or CAUSE 1 and no output in an error; and a step
that is no START and no reset event can change no more of the engine than its input. -/
theorem finishedResultIsReadable : Obligations.FinishedResultIsReadable := by
  intro s e hs hd
  refine ⟨fun he => ?_, fun he => ?_, fun t h hstart hreset => ?_⟩
  · cases e with
    | enc => cases he
    | dec =>
      obtain ⟨hp, hlen, hcause⟩ := hs.dec.err he
      exact ⟨rfl, (result_dec_of_err hp he).trans (by rw [hcause]; rfl),
        (readCause_of_done hd).trans (congrArg some hcause), (readOutLen_of_done hd).trans (congrArg some hlen)⟩
  · obtain ⟨out, ho⟩ := (s.eng e).outSeq?_isSome_iff.2 (hs.eng e).outWritten
    exact ⟨(readCause_of_done hd).trans (congrArg some (hs.cause_eq_zero he)), out, result_of_done hd he ho,
      (readOutLen_of_done hd).trans (congrArg some (Engine.outSeq?_length ho).symm), fun _ => readOut_of_done hd ho⟩
  · rcases step_cases_of_not_busy (State.not_busy_of_done hd) h with ⟨v, hv, hi⟩ | hi | hsame
    · exact absurd hi (hstart v hv)
    · exact absurd hi hreset
    · exact hsame

/-- Settles O26: while the engine is not BUSY a host write of the input is answered, and it replaces that part of the
engine alone. -/
theorem hostLoadsInput : Obligations.HostLoadsInput := by
  intro s e hb
  refine ⟨fun k b => ⟨_, hostMove_writeIn_eq_next_iff.2 ⟨hb, rfl⟩, ?_, fun a ha => ?_, ?_⟩,
    fun n => ⟨_, hostMove_writeInLen_eq_next_iff.2 ⟨hb, rfl⟩, ?_, rfl⟩⟩
  · rw [State.setEng_eng, Engine.writeIn_inBuf, Memory.read?_write_same]
  · rw [State.setEng_eng, Engine.writeIn_inBuf, Memory.read?_write_of_ne _ b ha]
  · rw [State.setEng_eng]
    rfl
  · rw [State.setEng_eng, Engine.writeInLen_inLen]

/-- Settles O22: ENC.START, not refused, replaces ENC by `Enc.start`. -/
theorem encStartBeginsAnOperation : Obligations.EncStartBeginsAnOperation := fun s hb =>
  ⟨s.setEnc s.enc.start, execEncStart_eq_next_iff.2 ⟨hb, rfl⟩, rfl, rfl, Engine.start_outSeq? _, rfl, rfl,
    State.status_enc _, rfl, rfl, fun _ => rfl, fun _ => rfl, rfl, rfl⟩

/-- Settles O23: DEC.START, not refused, replaces DEC by `Dec.start`. -/
theorem decStartBeginsAnOperation : Obligations.DecStartBeginsAnOperation := fun s hb =>
  ⟨s.setDec s.dec.start, execDecStart_eq_next_iff.2 ⟨hb, rfl⟩, rfl, rfl, Engine.start_outSeq? _, rfl, rfl, rfl,
    by simp [State.status_dec], rfl, rfl, fun _ => rfl, fun _ => rfl, fun _ => rfl, rfl, rfl⟩

/-- Settles O24: the write to CTRL is that engine's START, and both it and the input writes test BUSY first. -/
theorem busyEngineRefusesStartAndInputWrites : Obligations.BusyEngineRefusesStartAndInputWrites := by
  intro s e hb
  refine ⟨fun v hv => ?_, hostMove_writeIn_of_busy hb, hostMove_writeInLen_of_busy hb⟩
  cases e with
  | enc => exact (hostMove_writeCtrl_enc v s).trans ((if_pos hv).trans (execEncStart_of_busy hb))
  | dec => exact (hostMove_writeCtrl_dec v s).trans ((if_pos hv).trans (execDecStart_of_busy hb))

end Sys2Proof.Proofs
end

section
/-! PROOFS. The laws of the codec (44_laws.md): a round trip in terms of the encoder's productions (R100, R107, R109). -/

namespace Sys2Proof.Machine

/-! ## The header negation -/

/-- R107: the two windows are the same indices, and inverting a byte twice gives it back. -/
@[simp] theorem neg4_neg4 (s : List Byte) : neg4 (neg4 s) = s := by
  refine List.ext_getElem? fun k => ?_
  rw [neg4_getElem?_mask, neg4_getElem?_mask, Option.map_map]
  simp [Function.comp_def]

/-- R107: every law about a round trip is one about `Dlog` after `Elog`. -/
theorem decompress_compress (b : List Byte) : decompress (compress b) = dlog (elog b) :=
  congrArg dlog (neg4_neg4 (elog b))

@[simp] theorem compress_length (b : List Byte) : (compress b).length = (elog b).length := neg4_length _

/-! ## A raw byte sequence by the production at its start -/

theorem productions_raw_append {la : LookAhead} {rest : List Byte} (h : classify (la.raw ++ rest) 0 = some la) :
    productions (la.raw ++ rest) = la :: productions rest :=
  productions_raw_append_iff.2 ⟨h, rfl⟩

/-- `Elog` of a production's raw bytes and what follows them (R68). -/
theorem elog_raw_append {la : LookAhead} {rest : List Byte} (h : classify (la.raw ++ rest) 0 = some la) :
    elog (la.raw ++ rest) = la.emits ++ elog rest := by
  rw [elog, productions_raw_append h, List.flatMap_cons, elog]

/-- Induction over a raw byte sequence, the raw bytes of its first production in front. -/
theorem raw_induction {P : List Byte → Prop} (nil : P [])
    (append : ∀ la rest, classify (LookAhead.raw la ++ rest) 0 = some la → P rest → P (la.raw ++ rest))
    (s : List Byte) : P s := by
  induction s using productions_induction with
  | nil => exact nil
  | step s la h ih =>
    have hs : s = la.raw ++ s.drop la.width := by simpa using classify_raw h
    exact hs ▸ append la _ (hs ▸ h) ih

/-- The same induction by the three productions of R61, with what the detector has checked of each. -/
theorem raw_cases_induction {P : List Byte → Prop} (nil : P [])
    (literal : ∀ b rest, b ≠ Config.marker → P rest → P (b :: rest))
    (zrun : ∀ z rest, 1 ≤ z → classify (List.replicate z Config.fillZ ++ rest) 0 = some (.zrun z) →
      P rest → P (List.replicate z Config.fillZ ++ rest))
    (frun : ∀ f rest, 1 ≤ f → classify (Config.fillZ :: List.replicate f Config.fillF ++ rest) 0 = some (.frun f) →
      P rest → P (Config.fillZ :: List.replicate f Config.fillF ++ rest)) (s : List Byte) : P s := by
  induction s using raw_induction with
  | nil => exact nil
  | append la rest h ih =>
    have hwf := segment_wf_of_classify h
    cases la with
    | literal b => exact literal b rest (wf_lit_iff.1 hwf) ih
    | zrun z => exact zrun z rest (wf_zrun_iff.1 hwf).1 h ih
    | frun f => exact frun f rest (wf_frun_iff.1 hwf).1 h ih

theorem productions_literal_cons {b : Byte} (h : b ≠ Config.marker) (rest : List Byte) :
    productions (b :: rest) = .literal b :: productions rest :=
  productions_raw_append (classify_literal_iff.2 ⟨rfl, h⟩)

theorem productions_zrun_append {z : Nat} {rest : List Byte}
    (h : classify (List.replicate z Config.fillZ ++ rest) 0 = some (.zrun z)) :
    productions (List.replicate z Config.fillZ ++ rest) = .zrun z :: productions rest :=
  productions_raw_append (la := .zrun z) h

theorem productions_frun_append {f : Nat} {rest : List Byte}
    (h : classify (Config.fillZ :: List.replicate f Config.fillF ++ rest) 0 = some (.frun f)) :
    productions (Config.fillZ :: List.replicate f Config.fillF ++ rest) = .frun f :: productions rest :=
  productions_raw_append (la := .frun f) h

/-! ## Einv undoes Elog (R109) -/

/-- `Einv` maps a production's segment to the production's raw bytes. -/
theorem einvSegment_segment (la : LookAhead) : einvSegment la.segment = la.raw := by
  cases la <;> rfl

theorem einv_elog (b : List Byte) : einv (elog b) = b := by
  rw [einv, segments_elog, List.flatMap_map]
  simp only [einvSegment_segment, productions_raw]

theorem elog_injective : Function.Injective elog := Function.LeftInverse.injective einv_elog

theorem compress_injective : Function.Injective compress :=
  (Function.Involutive.injective neg4_neg4).comp elog_injective

/-! ## Decoding an encoding -/

/-- What the decoder makes of the segment a production emits (R77 to R79): for a 0xFF-run, not the trigger. -/
def LookAhead.decoded : LookAhead → List Byte
  | .literal b => [b]
  | .zrun z => List.replicate z Config.fillZ
  | .frun f => List.replicate f Config.fillF

/-- A mask of R4 that reads back the length of every 0xFF-run the encoder makes. -/
def readsRunLengths (flen : Byte) : Prop := ∀ n, 1 ≤ n → n ≤ 32 → (frunControl 0 n &&& flen).toNat + 1 = n

theorem readsRunLengths_flenMask : readsRunLengths Config.flenMask := fun _ => frunLength_frunControl 0

theorem readsRunLengths_7F : readsRunLengths 0x7F := by
  intro n h1 h2
  have h : ∀ k < 32, (frunControl 0 (k + 1) &&& 0x7F).toNat + 1 = k + 1 := by decide
  simpa [Nat.sub_add_cancel h1] using h (n - 1) (by omega)

theorem dlogWith_emits_append {flen : Byte} (hflen : readsRunLengths flen) {la : LookAhead}
    (h : la.segment.wf = true) (rest : List Byte) :
    dlogWith flen (la.emits ++ rest) = (dlogWith flen rest).map (la.decoded ++ ·) := by
  cases la with
  | literal b => exact dlogWith_literal flen (wf_lit_iff.1 h) rest
  | zrun z =>
    obtain ⟨h1, h2⟩ := wf_zrun_iff.1 h
    have hd := dlogWith_zrun flen (isFrunControl_zrunControl h1 h2) rest
    rwa [zrunLength_zrunControl h1 h2] at hd
  | frun f =>
    obtain ⟨h1, h2⟩ := wf_frun_iff.1 h
    have hd := dlogWith_frun flen (isFrunControl_frunControl 0 h1 h2) rest
    rwa [hflen f h1 h2] at hd

/-- Decoding an encoding never fails, and the mask does not matter (R108 (a), (b)). -/
theorem dlogWith_elog {flen : Byte} (hflen : readsRunLengths flen) (b : List Byte) :
    dlogWith flen (elog b) = .ok ((productions b).flatMap LookAhead.decoded) := by
  induction b using raw_induction with
  | nil => rfl
  | append la rest h ih =>
    rw [elog_raw_append h, dlogWith_emits_append hflen (segment_wf_of_classify h), ih,
      productions_raw_append h, List.flatMap_cons]
    rfl

theorem dlog_elog (b : List Byte) : dlog (elog b) = .ok ((productions b).flatMap LookAhead.decoded) :=
  dlogWith_elog readsRunLengths_flenMask b

/-! ## `strip` is what decoding makes of the productions (R100 (a)) -/

/-- A 0x00-run is kept when its last zero is no trigger: the byte after every other zero is a zero. -/
theorem stripFrom_replicate_append {zeros n : Nat} {rest : List Byte}
    (h : ¬ ((zeros + n) % 128 = 1 ∧ rest.head? = some Config.fillF)) :
    stripFrom zeros (List.replicate n Config.fillZ ++ rest) =
      List.replicate n Config.fillZ ++ stripFrom (zeros + n) rest := by
  induction n generalizing zeros with
  | zero => rfl
  | succ n ih =>
    rw [← Nat.add_assoc, Nat.add_right_comm] at h ⊢
    have hkeep : ¬ ((zeros + 1) % 128 = 1 ∧
        (List.replicate n Config.fillZ ++ rest).head? = some Config.fillF) := by
      cases n with
      | zero => exact h
      | succ n => simp [List.replicate_succ, Config.fillZ, Config.fillF]
    rw [List.replicate_succ, List.cons_append, stripFrom, if_pos rfl, if_neg hkeep, ih h, List.cons_append]

/-- Bytes other than 0x00 are kept, and end the zero run before them. -/
theorem stripFrom_append_of_not_mem {zeros : Nat} {t rest : List Byte} (ht : t ≠ []) (h : Config.fillZ ∉ t) :
    stripFrom zeros (t ++ rest) = t ++ stripFrom 0 rest := by
  induction t generalizing zeros with
  | nil => exact absurd rfl ht
  | cons b t ih =>
    obtain ⟨hb, ht'⟩ := List.ne_and_not_mem_of_not_mem_cons h
    rw [List.cons_append, stripFrom, if_neg (Ne.symm hb)]
    cases t with
    | nil => rfl
    | cons c t =>
      rw [ih (List.cons_ne_nil c t) ht']
      rfl

/-- `strip` from a step boundary on: the zeros before it are whole chunks of 128, or a zero run does not go on. -/
theorem stripFrom_eq_flatMap_decoded {zeros : Nat} {s : List Byte}
    (h : zeros % 128 = 0 ∨ s.head? ≠ some Config.fillZ) :
    stripFrom zeros s = (productions s).flatMap LookAhead.decoded := by
  induction s using raw_cases_induction generalizing zeros with
  | nil => rfl
  | literal b rest hb ih =>
    have hmem : Config.fillZ ∉ [b] := fun hz => hb (List.mem_singleton.1 hz).symm
    rw [productions_literal_cons hb]
    exact (stripFrom_append_of_not_mem (List.cons_ne_nil b []) hmem).trans
      (congrArg (b :: ·) (ih (.inl rfl)))
  | zrun z rest hz hc ih =>
    obtain ⟨hle, hstop, hF⟩ := (classify_zrun_append_iff hz).1 hc
    have hmod : zeros % 128 = 0 := h.resolve_right (by cases z <;> simp [List.replicate_succ] at hz ⊢)
    rw [← List.head?_eq_getElem?] at hstop hF
    have hnext : (zeros + z) % 128 = 0 ∨ rest.head? ≠ some Config.fillZ := hstop.imp_left (by omega)
    have hkeep : ¬ ((zeros + z) % 128 = 1 ∧ rest.head? = some Config.fillF) :=
      fun ⟨hone, hf⟩ => hF ⟨by omega, hf⟩
    rw [stripFrom_replicate_append hkeep, ih hnext, productions_zrun_append hc]
    rfl
  | frun f rest hf hc ih =>
    have hmod : zeros % 128 = 0 := h.resolve_right (by simp)
    obtain ⟨f, rfl⟩ := Nat.exists_eq_add_of_le' hf
    have hdelete : (zeros + 1) % 128 = 1 ∧ (List.replicate (f + 1) Config.fillF ++ rest).head? = some Config.fillF :=
      ⟨by omega, rfl⟩
    have hmem : Config.fillZ ∉ List.replicate (f + 1) Config.fillF := fun hz =>
      absurd (List.eq_of_mem_replicate hz) (by decide)
    rw [productions_frun_append hc, List.cons_append, stripFrom, if_pos rfl,
      if_pos hdelete, stripFrom_append_of_not_mem (by simp) hmem, ih (.inl rfl)]
    rfl

theorem strip_eq_flatMap_decoded (b : List Byte) : strip b = (productions b).flatMap LookAhead.decoded :=
  stripFrom_eq_flatMap_decoded (.inl rfl)

theorem decompress_compress_eq_strip (b : List Byte) : decompress (compress b) = .ok (strip b) := by
  rw [decompress_compress, dlog_elog, strip_eq_flatMap_decoded]

/-- R100 (d) for one production: only a 0xFF-run loses a byte, its trigger. -/
theorem LookAhead.decoded_length_add (la : LookAhead) :
    la.decoded.length + (if la.segment.isFrun then 1 else 0) = la.raw.length := by
  cases la <;> simp [LookAhead.decoded, LookAhead.raw, LookAhead.segment, Instr.isFrun]

theorem flatMap_decoded_length_add (las : List LookAhead) :
    (las.flatMap LookAhead.decoded).length + (las.map LookAhead.segment).countP Instr.isFrun =
      (las.flatMap LookAhead.raw).length := by
  induction las with
  | nil => rfl
  | cons la las ih =>
    have hla := la.decoded_length_add
    rw [List.flatMap_cons, List.length_append, List.map_cons, List.countP_cons, List.flatMap_cons, List.length_append]
    omega

theorem strip_length_add (b : List Byte) :
    (strip b).length + ((segments (elog b)).filter Instr.isFrun).length = b.length := by
  rw [strip_eq_flatMap_decoded, segments_elog, ← List.countP_eq_length_filter,
    flatMap_decoded_length_add, productions_raw]

/-! ## The round-trip domain (R100 (b)) -/

theorem takesFrun_iff (b : List Byte) : takesFrun b ↔ ∃ i ∈ segments (elog b), i.isFrun = true := by
  rw [segments_elog]
  constructor
  · rintro ⟨f, hf⟩
    exact ⟨_, List.mem_map_of_mem hf, rfl⟩
  · rintro ⟨i, hi, hfrun⟩
    obtain ⟨la, hla, rfl⟩ := List.mem_map.1 hi
    cases la with
    | literal | zrun => cases hfrun
    | frun f => exact ⟨f, hla⟩

theorem stripFrom_sublist (zeros : Nat) (s : List Byte) : (stripFrom zeros s).Sublist s := by
  induction s generalizing zeros with
  | nil => exact .slnil
  | cons b s ih =>
    unfold stripFrom
    split
    · split
      · exact (ih _).cons b
      · exact (ih _).cons_cons b
    · exact (ih _).cons_cons b

theorem strip_eq_self_iff_not_takesFrun (b : List Byte) : strip b = b ↔ ¬ takesFrun b := by
  have hlen := strip_length_add b
  calc strip b = b
    _ ↔ (strip b).length = b.length := ⟨congrArg _, (stripFrom_sublist 0 b).eq_of_length⟩
    _ ↔ (segments (elog b)).filter Instr.isFrun = [] := by
      rw [← List.length_eq_zero_iff]
      omega
    _ ↔ ¬ takesFrun b := by
      simp only [takesFrun_iff, List.filter_eq_nil_iff, not_exists, not_and]

/-- `hasTriggerRun` with `zeros` more zeros in front of `s`, of which the run must take one of `s` at least. -/
def hasTriggerRunAfter (zeros : Nat) (s : List Byte) : Prop :=
  ∃ pre post len, s = pre ++ List.replicate len Config.fillZ ++ Config.fillF :: post ∧
    pre.getLast? ≠ some Config.fillZ ∧ 1 ≤ len ∧ ((if pre = [] then zeros else 0) + len) % 128 = 1

theorem hasTriggerRunAfter_zero_iff {b : List Byte} : hasTriggerRunAfter 0 b ↔ hasTriggerRun b := by
  simp only [hasTriggerRunAfter, hasTriggerRun, ite_self, Nat.zero_add]
  refine exists_congr fun _ => exists_congr fun _ => exists_congr fun len => ?_
  refine and_congr_right fun _ => and_congr_right fun _ => and_iff_right_of_imp fun h => ?_
  omega

theorem not_hasTriggerRunAfter_nil (zeros : Nat) : ¬ hasTriggerRunAfter zeros [] := by
  rintro ⟨pre, post, len, h, -⟩
  simp at h

/-- A zero makes the run before it one longer; the run ends there when the next byte is 0xFF. -/
theorem hasTriggerRunAfter_cons_zero {zeros : Nat} {s : List Byte} :
    hasTriggerRunAfter zeros (Config.fillZ :: s) ↔
      ((zeros + 1) % 128 = 1 ∧ s.head? = some Config.fillF) ∨ hasTriggerRunAfter (zeros + 1) s := by
  constructor
  · rintro ⟨pre, post, len, hs, hlast, hlen, hmod⟩
    cases pre with
    | nil =>
      obtain ⟨n, rfl⟩ := Nat.exists_eq_add_of_le' hlen
      obtain rfl : s = List.replicate n Config.fillZ ++ Config.fillF :: post := (List.cons.inj hs).2
      cases n with
      | zero => exact .inl ⟨hmod, rfl⟩
      | succ n => exact .inr ⟨[], post, n + 1, rfl, hlast, by omega, by simp at hmod ⊢; omega⟩
    | cons p pre =>
      obtain ⟨rfl, rfl⟩ := List.cons.inj hs
      have hpre : pre ≠ [] := fun h => hlast (by rw [h]; rfl)
      refine .inr ⟨pre, post, len, rfl, ?_, hlen, ?_⟩
      · rwa [List.getLast?_cons_of_ne_nil hpre] at hlast
      · simpa [hpre] using hmod
  · rintro (⟨hmod, hF⟩ | ⟨pre, post, len, rfl, hlast, hlen, hmod⟩)
    · obtain ⟨post, rfl⟩ := List.head?_eq_some_iff.1 hF
      exact ⟨[], post, 1, rfl, nofun, Nat.le_refl 1, hmod⟩
    · by_cases hpre : pre = []
      · subst hpre
        exact ⟨[], post, len + 1, rfl, hlast, by omega, by simp at hmod ⊢; omega⟩
      · refine ⟨Config.fillZ :: pre, post, len, rfl, ?_, hlen, ?_⟩
        · rwa [List.getLast?_cons_of_ne_nil hpre]
        · simpa [hpre] using hmod

theorem getLast?_cons_ne_iff {b v : Byte} (hb : b ≠ v) {pre : List Byte} :
    (b :: pre).getLast? ≠ some v ↔ pre.getLast? ≠ some v := by
  cases pre <;> simp [hb]

/-- Any other byte ends the run before it. -/
theorem hasTriggerRunAfter_cons_of_ne {zeros : Nat} {b : Byte} (hb : b ≠ Config.fillZ) {s : List Byte} :
    hasTriggerRunAfter zeros (b :: s) ↔ hasTriggerRunAfter 0 s := by
  constructor
  · rintro ⟨pre, post, len, hs, hlast, hlen, hmod⟩
    cases pre with
    | nil =>
      obtain ⟨n, rfl⟩ := Nat.exists_eq_add_of_le' hlen
      exact absurd (List.cons.inj hs).1 hb
    | cons p pre =>
      obtain ⟨rfl, rfl⟩ := List.cons.inj hs
      exact ⟨pre, post, len, rfl, (getLast?_cons_ne_iff hb).1 hlast, hlen, by simpa using hmod⟩
  · rintro ⟨pre, post, len, rfl, hlast, hlen, hmod⟩
    exact ⟨b :: pre, post, len, rfl, (getLast?_cons_ne_iff hb).2 hlast, hlen, by simpa using hmod⟩

/-- `strip` deletes a byte exactly at a trigger run. -/
theorem stripFrom_eq_self_iff (zeros : Nat) (s : List Byte) :
    stripFrom zeros s = s ↔ ¬ hasTriggerRunAfter zeros s := by
  induction s generalizing zeros with
  | nil => simpa [stripFrom] using not_hasTriggerRunAfter_nil zeros
  | cons b s ih =>
    by_cases hb : b = Config.fillZ
    · subst hb
      rw [hasTriggerRunAfter_cons_zero, stripFrom, if_pos rfl]
      by_cases hdelete : (zeros + 1) % 128 = 1 ∧ s.head? = some Config.fillF
      · have hle := (stripFrom_sublist (zeros + 1) s).length_le
        rw [if_pos hdelete]
        refine iff_of_false (fun h => ?_) (fun h => h (.inl hdelete))
        rw [h, List.length_cons] at hle
        omega
      · rw [if_neg hdelete, List.cons_eq_cons, ih, or_iff_right hdelete]
        exact and_iff_right rfl
    · rw [hasTriggerRunAfter_cons_of_ne hb, stripFrom, if_neg hb, List.cons_eq_cons, ih]
      exact and_iff_right rfl

theorem strip_eq_self_iff (b : List Byte) : strip b = b ↔ ¬ hasTriggerRun b :=
  (stripFrom_eq_self_iff 0 b).trans (not_congr hasTriggerRunAfter_zero_iff)

end Sys2Proof.Machine

namespace Sys2Proof.Proofs

open Sys2Proof.Machine

/-- Settles O47: `strip` and decoding agree production by production, and a 0xFF-run is the one that loses a byte. -/
theorem decodeOfEncodeIsStrip : Obligations.DecodeOfEncodeIsStrip :=
  fun b => ⟨decompress_compress_eq_strip b, strip_length_add b⟩

/-- Settles O48: what comes back is `strip b`, which is `b` exactly without an E.FRUN step, and exactly without a
trigger run. -/
theorem roundTripExactlyWithoutTriggerRun : Obligations.RoundTripExactlyWithoutTriggerRun := by
  refine ⟨fun b => ⟨?_, ?_, takesFrun_iff b⟩, by decide, by decide⟩
  · rw [decompress_compress_eq_strip, Except.ok.injEq]
    exact strip_eq_self_iff b
  · exact not_iff_not.1 ((strip_eq_self_iff_not_takesFrun b).symm.trans (strip_eq_self_iff b))

/-- Settles O57: the segment a production emits stands under `Einv` for the production's raw bytes. -/
theorem encoderIsInjective : Obligations.EncoderIsInjective :=
  ⟨einv_elog, fun _ _ h => compress_injective h⟩

end Sys2Proof.Proofs
end

section
/-! PROOFS. The laws of the codec (44_laws.md): what decoding makes of any byte sequence, when it fails, and how long its
result is (R101, R105, R107, R108, R111, R112, R114). -/

namespace Sys2Proof.Machine

/-! ## One segment in front of the rest -/

theorem map_eq_ok_iff {x : Except DecodeFailure (List Byte)} {f : List Byte → List Byte} {r : List Byte} :
    x.map f = .ok r ↔ ∃ a, x = .ok a ∧ f a = r := by
  cases x <;> simp [Except.map]

theorem map_eq_error_iff {x : Except DecodeFailure (List Byte)} {f : List Byte → List Byte} {e : DecodeFailure} :
    x.map f = .error e ↔ x = .error e := by
  cases x <;> simp [Except.map]

theorem dlog_literal_cons {b : Byte} (h : b ≠ Config.marker) (rest : List Byte) :
    dlog (b :: rest) = (dlog rest).map (b :: ·) :=
  dlogWith_literal _ h rest

/-- A descriptor stands for 1 to 128 bytes, whatever follows it (R78, R79). -/
theorem dlog_descriptor_length (c : Byte) : ∃ run : List Byte, 1 ≤ run.length ∧ run.length ≤ 128 ∧
    ∀ rest, dlog (Config.marker :: c :: rest) = (dlog rest).map (run ++ ·) := by
  obtain ⟨hz1, hz2⟩ := zrunLength_range c
  obtain ⟨hf1, hf2⟩ := frunLength_range c
  cases hc : isFrunControl c with
  | false => exact ⟨List.replicate (zrunLength c) Config.fillZ, by simpa, by simpa, dlogWith_zrun _ hc⟩
  | true =>
    refine ⟨List.replicate (frunLength c) Config.fillF, by simpa, ?_, dlogWith_frun _ hc⟩
    rw [List.length_replicate]
    omega

/-! ## The size of a decoding (R111) -/

/-- A literal gives one byte for one, a descriptor 1 to 128 for two. -/
theorem dlog_length_bounds {s r : List Byte} (h : dlog s = .ok r) :
    s.length ≤ 2 * r.length ∧ r.length ≤ 64 * s.length := by
  induction s using stream_induction generalizing r with
  | nil =>
    cases h
    simp
  | trunc => simp [dlog] at h
  | literal b rest hb ih =>
    rw [dlog_literal_cons hb] at h
    obtain ⟨r', hr', rfl⟩ := map_eq_ok_iff.1 h
    have := ih hr'
    simp only [List.length_cons]
    omega
  | descriptor c rest ih =>
    obtain ⟨run, h1, h2, hrun⟩ := dlog_descriptor_length c
    rw [hrun] at h
    obtain ⟨r', hr', rfl⟩ := map_eq_ok_iff.1 h
    have := ih hr'
    simp only [List.length_cons, List.length_append]
    omega

/-- Descriptors of 128 zeros each, as many as one likes. -/
theorem dlog_replicate_zeros (m : Nat) :
    dlog (List.replicate m [(0x00 : Byte), 0x7F]).flatten = .ok (List.replicate (128 * m) 0x00) := by
  induction m with
  | zero => rfl
  | succ m ih =>
    have hd := dlogWith_zrun Config.flenMask (c := 0x7F) (by decide) (List.replicate m [(0x00 : Byte), 0x7F]).flatten
    rw [List.replicate_succ, List.flatten_cons, Nat.mul_add, Nat.add_comm, List.replicate_add]
    exact hd.trans (congrArg _ ih)

/-! ## When decoding fails (R105, R114) -/

/-- Decoding fails exactly at a lone marker after a stream that decodes. -/
theorem dlog_eq_error_iff {t : List Byte} :
    dlog t = .error .malformedStream ↔ ∃ s r, t = s ++ [Config.marker] ∧ dlog s = .ok r := by
  constructor
  · intro h
    induction t using stream_induction with
    | nil => cases h
    | trunc => exact ⟨[], [], rfl, rfl⟩
    | literal b rest hb ih =>
      rw [dlog_literal_cons hb, map_eq_error_iff] at h
      obtain ⟨s, r, rfl, hr⟩ := ih h
      exact ⟨b :: s, b :: r, rfl, by rw [dlog_literal_cons hb, hr]; rfl⟩
    | descriptor c rest ih =>
      obtain ⟨run, hrun⟩ := dlog_descriptor c
      rw [hrun, map_eq_error_iff] at h
      obtain ⟨s, r, rfl, hr⟩ := ih h
      exact ⟨Config.marker :: c :: s, run ++ r, rfl, by rw [hrun, hr]; rfl⟩
  · rintro ⟨s, r, rfl, hr⟩
    rw [dlog_append hr, map_eq_error_iff]
    exact dlogWith_lone_marker _

/-- There is no third outcome (R113). -/
theorem dlog_ok_or_error (t : List Byte) : (∃ r, dlog t = .ok r) ∨ dlog t = .error .malformedStream := by
  cases dlog t with
  | ok r => exact .inl ⟨r, rfl⟩
  | error e => exact .inr rfl

/-- A lone marker is mended by any byte after it, which becomes its control byte. -/
theorem dlog_append_descriptor {s r : List Byte} (h : dlog s = .ok r) (c : Byte) :
    ∃ r', dlog (s ++ [Config.marker] ++ [c]) = .ok r' := by
  obtain ⟨run, hrun⟩ := dlog_descriptor c
  have hc : dlog [Config.marker, c] = .ok (run ++ []) := hrun []
  rw [List.append_assoc, dlog_append h]
  exact ⟨_, congrArg _ hc⟩

/-- Appending a byte changes no byte before it. -/
theorem exists_neg4_append_singleton (w : List Byte) (x : Byte) : ∃ y, neg4 (w ++ [x]) = neg4 w ++ [y] := by
  refine ⟨if w.length < 4 then x ^^^ 0xFF else x, ?_⟩
  simp [neg4_eq_mapIdx, List.mapIdx_append]

end Sys2Proof.Machine

namespace Sys2Proof.Proofs

open Sys2Proof.Machine

/-- Settles O49: the encoder is injective, and a decoding is at least half as long as the stream. -/
theorem onlyEmptyCodesToEmpty : Obligations.OnlyEmptyCodesToEmpty := by
  refine ⟨fun b => ⟨fun h => compress_injective h, ?_⟩, fun w => ⟨fun h => ?_, ?_⟩⟩
  · rintro rfl
    rfl
  · obtain ⟨hlen, -⟩ := dlog_length_bounds h
    exact List.eq_nil_of_length_eq_zero (by simpa using hlen)
  · rintro rfl
    rfl

/-- Settles O52: `dlog_eq_error_iff` says which byte is the last of a failing stream, and a byte after it becomes its
control byte. -/
theorem decompressFailsExactlyOnLoneMarker : Obligations.DecompressFailsExactlyOnLoneMarker := by
  refine fun w => ⟨dlog_eq_error_iff, fun x hlast hx => ?_, fun h x => ?_, dlog_ok_or_error _⟩
  · refine (dlog_ok_or_error (neg4 w)).resolve_right fun h => ?_
    obtain ⟨s, r, hs, -⟩ := dlog_eq_error_iff.1 h
    rw [hs, List.getLast?_concat] at hlast
    exact hx (Option.some.inj hlast).symm
  · obtain ⟨s, r, hs, hr⟩ := dlog_eq_error_iff.1 h
    obtain ⟨y, hy⟩ := exists_neg4_append_singleton w x
    rw [decompress, hy, hs]
    exact dlog_append_descriptor hr y

/-- Settles O54: byte `k` is inverted for `k < 4`, where there is one. -/
theorem headerNegationIsPositionalInvolution : Obligations.HeaderNegationIsPositionalInvolution := by
  refine ⟨fun b k => ?_, fun s => ⟨neg4_neg4 s, neg4_length s, decompress_compress s⟩⟩
  rw [compress, neg4_getElem?]
  by_cases hk : k < (elog b).length
  · by_cases h4 : k < 4 <;> simp [h4, hk]
  · simp [List.getElem?_eq_none (Nat.le_of_not_lt hk)]

/-- Settles O56: the encoding is canonical, its segments are well formed, and both masks read back the lengths the
encoder makes. -/
theorem encodingIsWellFormed : Obligations.EncodingIsWellFormed := by
  intro b
  obtain ⟨hstream, hfields, -⟩ := isCanonical_elog b
  refine ⟨hstream, ⟨_, dlog_elog b⟩, fun x n hi => ?_, fun n hi => ?_, ?_, isCanonical_elog b⟩
  · exact ⟨eq_of_beq (hfields _ hi), wf_frun_iff.1 (wf_and_encode_of_mem_segments hi).1⟩
  · exact wf_zrun_iff.1 (wf_and_encode_of_mem_segments hi).1
  · exact (dlogWith_elog readsRunLengths_7F b).trans (dlogWith_elog readsRunLengths_flenMask b).symm

/-- Settles O59: the bounds hold segment by segment, of the logical stream, which is as long as the wire stream. -/
theorem decodedSizeBounds : Obligations.DecodedSizeBounds := by
  refine ⟨fun w r h => ?_, fun m => ?_⟩
  · have hlen := dlog_length_bounds h
    rw [neg4_length] at hlen
    omega
  · rw [decompress, neg4_neg4]
    exact dlog_replicate_zeros m

/-- Settles O60: a complete stream decodes in front of whatever follows; two zeros are one run, and two encodings of one
zero are two descriptors. -/
theorem dlogIsHomomorphicOnCompleteStreams : Obligations.DlogIsHomomorphicOnCompleteStreams := by
  refine ⟨fun s r t h => ?_, by decide⟩
  have hcut := dlog_append h t
  exact ⟨fun r' ht => hcut.trans (congrArg _ ht), fun e ht => hcut.trans (congrArg _ ht)⟩

end Sys2Proof.Proofs
end

section
/-! PROOFS. The laws of the codec (44_laws.md): the encoding of runs, of inputs without 0x00, and the size of an encoding
(R102, R103, R106, R110). -/

namespace Sys2Proof.Machine

/-! ## `Elog` by the three productions (R62 to R64) -/

theorem elog_literal_cons {b : Byte} (h : b ≠ Config.marker) (rest : List Byte) : elog (b :: rest) = b :: elog rest :=
  elog_raw_append (la := .literal b) (classify_literal_iff.2 ⟨rfl, h⟩)

theorem elog_zrun_append {z : Nat} {rest : List Byte}
    (h : classify (List.replicate z Config.fillZ ++ rest) 0 = some (.zrun z)) :
    elog (List.replicate z Config.fillZ ++ rest) = Config.marker :: zrunControl z :: elog rest :=
  elog_raw_append (la := .zrun z) h

theorem elog_frun_append {f : Nat} {rest : List Byte}
    (h : classify (Config.fillZ :: List.replicate f Config.fillF ++ rest) 0 = some (.frun f)) :
    elog (Config.fillZ :: List.replicate f Config.fillF ++ rest) = Config.marker :: frunControl 0 f :: elog rest :=
  elog_raw_append (la := .frun f) h

/-! ## Inputs that are their own logical encoding (R106) -/

theorem elog_of_not_mem {b : List Byte} (h : Config.marker ∉ b) : elog b = b := by
  induction b with
  | nil => rfl
  | cons x b ih =>
    obtain ⟨hx, hb⟩ := List.ne_and_not_mem_of_not_mem_cons h
    rw [elog_literal_cons hx.symm, ih hb]

/-- The control byte of a ZRUN is 0x00 for one zero alone. -/
theorem eq_one_of_zrunControl_eq_zero {z : Nat} (h1 : 1 ≤ z) (h2 : z ≤ 128) (h : zrunControl z = 0x00) : z = 1 := by
  rw [← zrunLength_zrunControl h1 h2, h]
  rfl

/-- The control byte of an FRUN the encoder makes is at most 0x9F. -/
theorem frunControl_zero_ne_FF {f : Nat} (h1 : 1 ≤ f) (h2 : f ≤ 32) : frunControl 0 f ≠ 0xFF := by
  intro h
  have hx := frunUnused_frunControl 0 h1 h2
  rw [h] at hx
  exact absurd hx (by decide)

/-- At its first 0x00 an input differs from its encoding: the control byte is never the byte after that 0x00. -/
theorem not_mem_of_elog_eq_self {b : List Byte} (h : elog b = b) : Config.marker ∉ b := by
  induction b using raw_cases_induction with
  | nil => simp
  | literal x rest hx ih =>
    rw [elog_literal_cons hx] at h
    exact List.not_mem_cons_of_ne_of_not_mem hx.symm (ih (List.cons.inj h).2)
  | zrun z rest hz hc ih =>
    obtain ⟨hle, hstop, -⟩ := (classify_zrun_append_iff hz).1 hc
    rw [elog_zrun_append hc] at h
    obtain ⟨k, rfl⟩ := Nat.exists_eq_add_of_le' hz
    have htail : zrunControl (k + 1) :: elog rest = List.replicate k Config.fillZ ++ rest := (List.cons.inj h).2
    cases k with
    | zero =>
      rw [List.replicate_zero, List.nil_append] at htail
      exact absurd (congrArg (·[0]?) htail).symm (hstop.resolve_left (by decide))
    | succ k =>
      have := eq_one_of_zrunControl_eq_zero hz hle (List.cons.inj htail).1
      omega
  | frun f rest hf hc ih =>
    obtain ⟨hle, -⟩ := (classify_frun_append_iff hf).1 hc
    rw [elog_frun_append hc] at h
    obtain ⟨k, rfl⟩ := Nat.exists_eq_add_of_le' hf
    have htail : frunControl 0 (k + 1) :: elog rest = List.replicate (k + 1) Config.fillF ++ rest := (List.cons.inj h).2
    exact absurd (List.cons.inj htail).1 (frunControl_zero_ne_FF hf hle)

/-! ## Runs (R102, R103) -/

/-- Whole chunks of 128 zeros, in front of anything. -/
theorem elog_chunks_append (k : Nat) (rest : List Byte) :
    elog (List.replicate (128 * k) Config.fillZ ++ rest) =
      (List.replicate k [(0x00 : Byte), 0x7F]).flatten ++ elog rest := by
  induction k with
  | zero => rfl
  | succ k ih =>
    have hc : ∀ t, classify (List.replicate 128 Config.fillZ ++ t) 0 = some (.zrun 128) := fun _ =>
      (classify_zrun_append_iff (by decide)).2 ⟨Nat.le_refl _, .inl rfl, fun h => absurd h.1 (by decide)⟩
    rw [Nat.mul_add, Nat.add_comm, List.replicate_add, List.append_assoc, elog_zrun_append (hc _), ih,
      List.replicate_succ]
    rfl

theorem elog_short_zeros {r : Nat} (h1 : 1 ≤ r) (h2 : r ≤ 128) :
    elog (List.replicate r Config.fillZ) = [0x00, zrunControl r] := by
  have hc := (classify_zrun_append_iff (rest := []) h1).2 ⟨h2, .inr nofun, fun h => nomatch h.2⟩
  have h := elog_zrun_append hc
  rwa [List.append_nil] at h

theorem elog_zeros {L : Nat} (hL : 1 ≤ L) : elog (List.replicate L 0x00) =
    (List.replicate ((L - 1) / 128) [(0x00 : Byte), 0x7F]).flatten ++ [0x00, BitVec.ofNat 8 ((L - 1) % 128)] := by
  have hsplit : L = 128 * ((L - 1) / 128) + ((L - 1) % 128 + 1) := by omega
  have hshort := elog_short_zeros (r := (L - 1) % 128 + 1) (by omega) (by omega)
  conv_lhs => rw [hsplit, List.replicate_add]
  exact (elog_chunks_append _ _).trans (congrArg _ hshort)

/-- One descriptor for at most 32 bytes 0xFF; the rest are literals. -/
theorem elog_trigger {M : Nat} (hM : 1 ≤ M) : elog (Config.fillZ :: List.replicate M Config.fillF) =
    [0x00, 0x80 ||| BitVec.ofNat 8 (min M 32 - 1)] ++ List.replicate (M - 32) 0xFF := by
  have hsplit : List.replicate M Config.fillF =
      List.replicate (min M 32) Config.fillF ++ List.replicate (M - 32) Config.fillF := by
    rw [← List.replicate_add]
    congr 1
    omega
  have hstop : min M 32 = 32 ∨ (List.replicate (M - 32) Config.fillF)[0]? ≠ some Config.fillF := by
    by_cases h : 32 ≤ M
    · exact .inl (Nat.min_eq_right h)
    · have h0 : M - 32 = 0 := by omega
      simp [h0]
  have hc := (classify_frun_append_iff (f := min M 32) (by omega)).2 ⟨Nat.min_le_right _ _, hstop⟩
  have hmem : Config.marker ∉ List.replicate (M - 32) Config.fillF := fun h =>
    absurd (List.eq_of_mem_replicate h) (by decide)
  rw [hsplit]
  refine (elog_frun_append hc).trans ?_
  rw [elog_of_not_mem hmem]
  simp [frunControl, Config.marker, Config.typeBit, Config.fillF]

/-- The trigger is deleted, and nothing else. -/
theorem strip_trigger {M : Nat} (hM : 1 ≤ M) :
    strip (Config.fillZ :: List.replicate M Config.fillF) = List.replicate M Config.fillF := by
  obtain ⟨m, rfl⟩ := Nat.exists_eq_add_of_le' hM
  have hmem : Config.fillZ ∉ List.replicate (m + 1) Config.fillF := fun h =>
    absurd (List.eq_of_mem_replicate h) (by decide)
  have hkeep := stripFrom_append_of_not_mem (zeros := 1) (rest := []) (by simp) hmem
  rw [List.append_nil, stripFrom, List.append_nil] at hkeep
  rwa [strip, stripFrom, if_pos rfl, if_pos ⟨rfl, rfl⟩]

/-! ## The size of an encoding (R110) -/

/-- Two bytes are emitted for at most 128, and one for one. -/
theorem width_le_of_classify {b : List Byte} {i : Nat} {la : LookAhead} (h : classify b i = some la) :
    la.width ≤ 64 * la.emits.length := by
  obtain ⟨-, hle⟩ := classify_width h
  cases la with
  | literal => simp [LookAhead.width, LookAhead.emits]
  | zrun | frun => exact hle

theorem length_le_elog_length (b : List Byte) : b.length ≤ 64 * (elog b).length := by
  induction b using raw_induction with
  | nil => rfl
  | append la rest h ih =>
    have := width_le_of_classify h
    rw [elog_raw_append h, List.length_append, List.length_append, LookAhead.raw_length]
    omega

/-- Only a lone 0x00 costs more than 3/2 bytes for one, and the production after it starts with another byte, so it is
no 0x00-run: where the input does not begin with 0x00 half a byte is left over. -/
theorem elog_length_le (b : List Byte) :
    2 * (elog b).length ≤ 3 * b.length + 1 ∧
      (b[0]? ≠ some Config.fillZ → 2 * (elog b).length ≤ 3 * b.length) := by
  induction b using raw_cases_induction with
  | nil => simp
  | literal x rest hx ih =>
    rw [elog_literal_cons hx, List.length_cons, List.length_cons]
    omega
  | zrun z rest hz hc ih =>
    obtain ⟨-, hstop, -⟩ := (classify_zrun_append_iff hz).1 hc
    obtain ⟨hhead, -⟩ := classify_zrun_iff.1 hc
    obtain ⟨ih1, ih2⟩ := ih
    rw [elog_zrun_append hc, List.length_append, List.length_replicate, List.length_cons, List.length_cons]
    refine ⟨?_, absurd hhead⟩
    rcases hstop with rfl | hstop
    · omega
    · have := ih2 hstop
      omega
  | frun f rest hf hc ih =>
    obtain ⟨ih1, -⟩ := ih
    rw [elog_frun_append hc, List.length_append, List.length_cons, List.length_cons, List.length_cons,
      List.length_replicate]
    exact ⟨by omega, absurd rfl⟩

theorem elog_pair_append (t : List Byte) : elog ([0x00, 0x01] ++ t) = [0x00, 0x00, 0x01] ++ elog t := by
  have hc : classify (List.replicate 1 Config.fillZ ++ 0x01 :: t) 0 = some (.zrun 1) :=
    (classify_zrun_append_iff (by decide)).2 ⟨by decide, .inr (by simp [Config.fillZ]), by simp [Config.fillF]⟩
  refine (elog_zrun_append hc).trans ?_
  rw [elog_literal_cons (by decide)]
  rfl

/-- Each pair costs three bytes, in front of anything. -/
theorem elog_pairs_append_length (m : Nat) (rest : List Byte) :
    (elog ((List.replicate m [(0x00 : Byte), 0x01]).flatten ++ rest)).length = 3 * m + (elog rest).length := by
  induction m with
  | zero => simp
  | succ m ih =>
    rw [List.replicate_succ, List.flatten_cons, List.append_assoc, elog_pair_append, List.length_append, ih,
      List.length_cons, List.length_cons, List.length_singleton]
    omega

end Sys2Proof.Machine

namespace Sys2Proof.Proofs

open Sys2Proof.Machine

/-- Settles O50: whole chunks of 128 zeros, and then 1 to 128 zeros at the end of the input. -/
theorem zeroRunIsChunkedBy128 : Obligations.ZeroRunIsChunkedBy128 := by
  exact ⟨fun L hL => elog_zeros hL, congrArg neg4 (elog_zeros (by decide)), congrArg neg4 (elog_zeros (by decide))⟩

/-- Settles O51: one descriptor for at most 32 bytes; what is left holds no 0x00, and `strip` deletes the trigger. -/
theorem fullRunIsCappedAt32 : Obligations.FullRunIsCappedAt32 := by
  refine ⟨fun M hM => ⟨elog_trigger hM, ?_⟩, congrArg neg4 (elog_trigger (by decide)),
    congrArg neg4 (elog_trigger (by decide))⟩
  exact (decompress_compress_eq_strip _).trans (congrArg _ (strip_trigger hM))

/-- Settles O53: literals stand for themselves, and no control byte is the byte after the 0x00 it encodes. -/
theorem elogFixesExactlyZeroFreeInputs : Obligations.ElogFixesExactlyZeroFreeInputs := by
  refine ⟨fun b => ⟨⟨not_mem_of_elog_eq_self, elog_of_not_mem⟩, fun h => ?_⟩, ?_⟩
  · rw [compress, elog_of_not_mem h]
  · exact congrArg neg4 (elog_of_not_mem (by decide))

/-- Settles O58: the bounds by induction over the productions, and the three families by their encodings. -/
theorem encodedSizeBounds : Obligations.EncodedSizeBounds := by
  refine ⟨fun b => ?_, fun m => ?_⟩
  · have hlow := length_le_elog_length b
    obtain ⟨hhigh, -⟩ := elog_length_le b
    rw [compress_length]
    omega
  · have hpairs := elog_pairs_append_length m
    have hzeros := congrArg List.length (elog_chunks_append m [])
    simp only [compress_length]
    refine ⟨?_, hpairs [0x00], ?_⟩
    · simpa using hpairs []
    · simpa [Config.fillZ, Nat.mul_comm] using hzeros

end Sys2Proof.Proofs
end

section
/-! PROOFS. Exceptions (60_exceptions.md): what can stop the machine (R132, R97), namely nothing an engine does by
itself, and of the host's moves exactly those that break a duty. -/

namespace Sys2Proof.Machine

/-- Under the invariant a turn of an engine is answered: it takes the step it selects, or waits (R69, R85, R130). -/
theorem State.Inv.exists_engineStep {s : State} (h : s.Inv) (e : EngineId) : ∃ t, engineStep e s = .next t := by
  cases hb : s.busy e with
  | true =>
    obtain ⟨i, hsel, t, ht⟩ := h.exists_selected_step hb
    exact ⟨t, engineStep_eq_next_iff.2 (.inr ⟨i, hsel, ht⟩)⟩
  | false =>
    have hwait : s.select e = .waiting := by
      cases e with
      | enc => exact Enc.select_waiting hb
      | dec => exact Dec.select_waiting hb
    exact ⟨s, engineStep_eq_next_iff.2 (.inl ⟨hwait, rfl⟩)⟩

/-- A write to CTRL is answered unless it is a START of a BUSY engine (R20, R92). -/
theorem exists_hostMove_writeCtrl {s : State} {e : EngineId} {v : Byte}
    (h : v.getLsbD 0 = true → s.busy e = false) : ∃ t, hostMove (.writeCtrl e v) s = .next t := by
  by_cases hv : v.getLsbD 0 = true
  · cases e with
    | enc => exact ⟨_, (hostMove_writeCtrl_enc v s).trans ((if_pos hv).trans (execEncStart_eq_next_iff.2 ⟨h hv, rfl⟩))⟩
    | dec => exact ⟨_, (hostMove_writeCtrl_dec v s).trans ((if_pos hv).trans (execDecStart_eq_next_iff.2 ⟨h hv, rfl⟩))⟩
  · cases e with
    | enc => exact ⟨s, (hostMove_writeCtrl_enc v s).trans (if_neg hv)⟩
    | dec => exact ⟨s, (hostMove_writeCtrl_dec v s).trans (if_neg hv)⟩

/-- Under the invariant every step is answered in which the host breaks no duty (R97, R132). -/
theorem State.Inv.exists_step {s : State} (h : s.Inv) (hd : ¬ s.hostBreaksDuty) : ∃ t, step s = .next t := by
  cases hs : s.agenda with
  | nil =>
    rw [step_of_no_agenda hs]
    exact h.exists_engineStep s.defaultEngine
  | cons i rest =>
    rw [step_of_agenda hs]
    cases i with
    | tick e => exact State.Inv.exists_engineStep (s := { s with agenda := rest }) ⟨h.enc, h.dec⟩ e
    | host m =>
      cases m with
      | writeIn e k b =>
        have hb : s.busy e = false := Bool.eq_false_iff.2 fun hb => hd ⟨e, rest, hb, .inl ⟨k, b, hs⟩⟩
        exact ⟨_, hostMove_writeIn_eq_next_iff.2 ⟨hb, rfl⟩⟩
      | writeInLen e n =>
        have hb : s.busy e = false := Bool.eq_false_iff.2 fun hb => hd ⟨e, rest, hb, .inr (.inl ⟨n, hs⟩)⟩
        exact ⟨_, hostMove_writeInLen_eq_next_iff.2 ⟨hb, rfl⟩⟩
      | writeCtrl e v =>
        have hb (hv : v.getLsbD 0 = true) : s.busy e = false :=
          Bool.eq_false_iff.2 fun hb => hd ⟨e, rest, hb, .inr (.inr ⟨v, hv, hs⟩)⟩
        exact exists_hostMove_writeCtrl hb
      | reset e => exact ⟨_, rfl⟩

end Sys2Proof.Machine

namespace Sys2Proof.Proofs

open Sys2Proof.Machine

/-- A move of the host that breaks a duty of R97 is refused (R92, R140). -/
theorem step_refused_of_hostBreaksDuty {s : State} (hd : s.hostBreaksDuty) : ∃ r, step s = .refused r := by
  obtain ⟨e, rest, hb, hmove⟩ := hd
  obtain ⟨hctrl, hin, hlen⟩ := busyEngineRefusesStartAndInputWrites { s with agenda := rest } e hb
  rcases hmove with ⟨k, b, hs⟩ | ⟨n, hs⟩ | ⟨v, hv, hs⟩
  · exact ⟨_, (step_of_agenda hs).trans (hin k b)⟩
  · exact ⟨_, (step_of_agenda hs).trans (hlen n)⟩
  · exact ⟨_, (step_of_agenda hs).trans (hctrl v hv)⟩

/-- Settles O37: a step is refused where the host breaks a duty, and answered everywhere else. -/
theorem onlyABadHostStopsTheMachine : Obligations.OnlyABadHostStopsTheMachine := by
  intro s h
  by_cases hd : s.hostBreaksDuty
  · obtain ⟨r, hr⟩ := step_refused_of_hostBreaksDuty hd
    simp [hr, hd]
  · obtain ⟨t, ht⟩ := h.exists_step hd
    simp [ht, hd]

end Sys2Proof.Proofs
end

section
/-! THE RESET EVENT (R135, R136): what an idle engine shows the host, and what the event leaves of the other engine. -/

namespace Sys2Proof.Machine

/-! ## The reset event on the state -/

theorem hostMove_reset (e : EngineId) (s : State) : hostMove (.reset e) s = .next (s.resetEngine e) := rfl

@[simp] theorem State.resetEngine_enc (s : State) : s.resetEngine .enc = s.setEnc s.enc.resetEvent := rfl
@[simp] theorem State.resetEngine_dec (s : State) : s.resetEngine .dec = s.setDec s.dec.resetEvent := rfl

@[simp] theorem State.resetEngine_eng (s : State) (e : EngineId) : (s.resetEngine e).eng e = (s.eng e).resetEvent := by
  cases e with
  | enc => simp
  | dec => simp

@[simp] theorem State.resetEngine_agenda (s : State) (e : EngineId) : (s.resetEngine e).agenda = s.agenda := by
  cases e with
  | enc => simp
  | dec => simp

/-! ## What the host reads after it -/

/-- STATUS is 0 after a reset event: the engine is IDLE, and ERR is clear (R18, R25). -/
@[simp] theorem readStatus_resetEngine (s : State) (e : EngineId) : readStatus e (s.resetEngine e) = 0 := by
  unfold readStatus
  cases e with
  | enc => simp [State.status_enc]
  | dec => simp [State.status_dec]

@[simp] theorem State.resetEngine_busy (s : State) (e : EngineId) : (s.resetEngine e).busy e = false := by
  cases e with
  | enc => simp [Enc.busy]
  | dec => simp [Dec.busy]

@[simp] theorem State.resetEngine_cause (s : State) (e : EngineId) : (s.resetEngine e).cause e = 0 := by
  cases e with
  | enc => simp
  | dec => simp

/-- CAUSE can be read after a reset event, whatever the engine did before, and is 0 (R19, R25). -/
@[simp] theorem readCause_resetEngine (s : State) (e : EngineId) : readCause e (s.resetEngine e) = some 0 := by
  simp [readCause]

end Sys2Proof.Machine

namespace Sys2Proof.Proofs

open Sys2Proof.Machine

/-- Settles O2: the host move is `State.resetEngine`, which rewrites its own engine alone. -/
theorem resetEventAbandonsAnyOperation : Obligations.ResetEventAbandonsAnyOperation := by
  intro s e
  refine ⟨s.resetEngine e, hostMove_reset e s, readStatus_resetEngine s e, readCause_resetEngine s e,
    by simp, by simp, by simp, s.resetEngine_agenda e, ?_, ?_⟩
  · rintro rfl
    exact ⟨s.setEnc_dec _, s.enc.resetEvent_phase⟩
  · rintro rfl
    exact ⟨s.setDec_enc _, s.dec.resetEvent_phase⟩

end Sys2Proof.Proofs
end
